-- ==== Sys2Proof/Word.lean ====
section
/-!
DEFINITION. The word types of the machine and their plainest arithmetic.
Every value is unsigned and of a stated width (spec 00_scope.md R7); bits are numbered from 0, the least significant.
-/

namespace Sys2Proof

/-- An 8-bit value: a general register, a timer, a memory cell, the immediate KK (00 R6, R8). -/
abbrev Byte := BitVec 8

/-- A 16-bit value: an instruction word, the address register I, the pc's storage, a stack slot (00 R6). -/
abbrev Word := BitVec 16

/-- A 4-bit field: P, X, Y or N of an instruction word, or a key code (00 R8, 44 R188). -/
abbrev Nibble := BitVec 4

/-- A register index 0..15: the fields X and Y, and the content of KW (30 R93, 10 R30). -/
abbrev Reg := BitVec 4

/-- A 12-bit address: the field NNN, and every address after masking (00 R6, 20 R61). -/
abbrev Addr := BitVec 12

end Sys2Proof
end

