-- ==== Sys2Proof/Syntax.lean ====
section
/-!
DEFINITION. The instructions, one constructor per row of spec/opcode_table.json, in the table's order.
A row's ignored bits (the table's field `i`, and Y of SHR and SHL) are kept as fields, so that an instruction and its word
determine each other (30_encoding.md R94, R98; log entries 19, 20, 30).
-/

namespace Sys2Proof

/-- An instruction: 30_encoding.md R95, one constructor per row, operands as 30 R92 gives them. -/
inductive Instr where
  /-- 00E0 clear screen, 43 R170; `ign` is the ignored X nibble. -/
  | cls (ign : Nibble)
  /-- 00EE return, 40 R123; `ign` is the ignored X nibble. -/
  | ret (ign : Nibble)
  /-- 1nnn jump, 40 R124. -/
  | jp (nnn : Addr)
  /-- 2nnn call, 40 R125. -/
  | call (nnn : Addr)
  /-- 3xkk skip if VX equals KK, 40 R126. -/
  | seImm (x : Reg) (kk : Byte)
  /-- 4xkk skip if VX differs from KK, 40 R127. -/
  | sneImm (x : Reg) (kk : Byte)
  /-- 5xy0 skip if VX equals VY, 40 R128; `ign` is the ignored N nibble. -/
  | seReg (x y : Reg) (ign : Nibble)
  /-- 6xkk load immediate, 41 R140. -/
  | ldImm (x : Reg) (kk : Byte)
  /-- 7xkk add immediate, 41 R141. -/
  | addImm (x : Reg) (kk : Byte)
  /-- 8xy0 copy register, 41 R142. -/
  | ldReg (x y : Reg)
  /-- 8xy1 bitwise OR, 41 R143. -/
  | orReg (x y : Reg)
  /-- 8xy2 bitwise AND, 41 R144. -/
  | andReg (x y : Reg)
  /-- 8xy3 bitwise exclusive OR, 41 R145. -/
  | xorReg (x y : Reg)
  /-- 8xy4 add with carry out, 41 R146. -/
  | addReg (x y : Reg)
  /-- 8xy5 VX minus VY, 41 R147. -/
  | sub (x y : Reg)
  /-- 8xy6 shift right by one, 41 R148. -/
  | shr (x y : Reg)
  /-- 8xy7 VY minus VX, 41 R149. -/
  | subn (x y : Reg)
  /-- 8xyE shift left by one, 41 R150. -/
  | shl (x y : Reg)
  /-- 9xy0 skip if VX differs from VY, 40 R129; `ign` is the ignored N nibble. -/
  | sneReg (x y : Reg) (ign : Nibble)
  /-- Annn load the address register, 42 R160. -/
  | ldI (nnn : Addr)
  /-- Bnnn jump to NNN plus V0, 40 R130. -/
  | jpV0 (nnn : Addr)
  /-- Cxkk random byte under a mask, 42 R161. -/
  | rnd (x : Reg) (kk : Byte)
  /-- Dxyn draw a sprite of N rows, 43 R171. -/
  | drw (x y : Reg) (n : Nibble)
  /-- Ex9E skip if the key is held, 44 R180. -/
  | skp (x : Reg)
  /-- ExA1 skip if the key is not held, 44 R181. -/
  | sknp (x : Reg)
  /-- Fx07 read the delay timer, 44 R182. -/
  | ldVdt (x : Reg)
  /-- Fx0A enter key-wait, 44 R183. -/
  | ldK (x : Reg)
  /-- Fx15 set the delay timer, 44 R185. -/
  | ldDtv (x : Reg)
  /-- Fx18 set the sound timer, 44 R186. -/
  | ldStv (x : Reg)
  /-- Fx1E add VX to the address register, 42 R162. -/
  | addI (x : Reg)
  /-- Fx29 point the address register at a glyph, 42 R163. -/
  | ldF (x : Reg)
  /-- Fx33 store the decimal digits, 45 R190. -/
  | ldB (x : Reg)
  /-- Fx55 store V0 to VX, 45 R191. -/
  | stM (x : Reg)
  /-- Fx65 load V0 to VX, 45 R192. -/
  | ldM (x : Reg)
  /-- 0... other words of group 0, 46 R195; `bits` are the word's low twelve bits. -/
  | nop0 (bits : BitVec 12)
  /-- 8... other words of group 8, 46 R195. -/
  | nop8 (bits : BitVec 12)
  /-- E... other words of group E, 46 R195. -/
  | nopE (bits : BitVec 12)
  /-- F... other words of group F, 46 R195. -/
  | nopF (bits : BitVec 12)
deriving DecidableEq, Repr

/-- The row's name in spec/opcode_table.json (30 R95, R102). -/
def Instr.mnemonic : Instr → String
  | .cls _ => "CLS"
  | .ret _ => "RET"
  | .jp _ => "JP"
  | .call _ => "CALL"
  | .seImm _ _ => "SE.i"
  | .sneImm _ _ => "SNE.i"
  | .seReg _ _ _ => "SE.r"
  | .ldImm _ _ => "LD.i"
  | .addImm _ _ => "ADD.i"
  | .ldReg _ _ => "LD.r"
  | .orReg _ _ => "OR"
  | .andReg _ _ => "AND"
  | .xorReg _ _ => "XOR"
  | .addReg _ _ => "ADD.r"
  | .sub _ _ => "SUB"
  | .shr _ _ => "SHR"
  | .subn _ _ => "SUBN"
  | .shl _ _ => "SHL"
  | .sneReg _ _ _ => "SNE.r"
  | .ldI _ => "LD.I"
  | .jpV0 _ => "JP.V0"
  | .rnd _ _ => "RND"
  | .drw _ _ _ => "DRW"
  | .skp _ => "SKP"
  | .sknp _ => "SKNP"
  | .ldVdt _ => "LD.VDT"
  | .ldK _ => "LD.K"
  | .ldDtv _ => "LD.DTV"
  | .ldStv _ => "LD.STV"
  | .addI _ => "ADD.I"
  | .ldF _ => "LD.F"
  | .ldB _ => "LD.B"
  | .stM _ => "ST.M"
  | .ldM _ => "LD.M"
  | .nop0 _ => "NOP.0"
  | .nop8 _ => "NOP.8"
  | .nopE _ => "NOP.E"
  | .nopF _ => "NOP.F"

end Sys2Proof
end

