-- ==== Sys2Proof/WellFormed.lean ====
section
/-!
DEFINITION. Which instructions stand for a word of their own row.
Every operand value of a behaviour row is legal (30_encoding.md R93), so only the four no-op rows have a check: their word
must be one that no earlier row of the group matches (30 R97, R98; 46_unrecognised.md R195).
-/

namespace Sys2Proof

/-- The KK values of group 0 that name a behaviour: CLS and RET (30 R98). -/
def group0Selectors : List Byte := [0xE0, 0xEE]

/-- The N values of group 8 that name a behaviour (30 R98). -/
def group8Selectors : List Nibble := [0x0, 0x1, 0x2, 0x3, 0x4, 0x5, 0x6, 0x7, 0xE]

/-- The KK values of group E that name a behaviour: SKP and SKNP (30 R98). -/
def groupESelectors : List Byte := [0x9E, 0xA1]

/-- The KK values of group F that name a behaviour (30 R98). -/
def groupFSelectors : List Byte := [0x07, 0x0A, 0x15, 0x18, 0x1E, 0x29, 0x33, 0x55, 0x65]

/-- An instruction is well formed when its word belongs to its own row of the opcode map (30 R95, R97, R98). -/
def Instr.wellFormed : Instr → Bool
  | .nop0 bits => !group0Selectors.contains (bits.extractLsb' 0 8)
  | .nop8 bits => !group8Selectors.contains (bits.extractLsb' 0 4)
  | .nopE bits => !groupESelectors.contains (bits.extractLsb' 0 8)
  | .nopF bits => !groupFSelectors.contains (bits.extractLsb' 0 8)
  | .cls _ | .ret _ | .jp _ | .call _ | .seImm _ _ | .sneImm _ _ | .seReg _ _ _ | .ldImm _ _ | .addImm _ _
  | .ldReg _ _ | .orReg _ _ | .andReg _ _ | .xorReg _ _ | .addReg _ _ | .sub _ _ | .shr _ _ | .subn _ _ | .shl _ _
  | .sneReg _ _ _ | .ldI _ | .jpV0 _ | .rnd _ _ | .drw _ _ _ | .skp _ | .sknp _ | .ldVdt _ | .ldK _ | .ldDtv _
  | .ldStv _ | .addI _ | .ldF _ | .ldB _ | .stM _ | .ldM _ => true

end Sys2Proof
end

