-- ==== Sys2Proof/Decode.lean ====
section
/-!
DEFINITION. The decoder, total on any word and any bytes, and the encoder beside it.
Fields: 30_encoding.md R91; dispatch: R94; the opcode map: R95; totality: R97, R98. The numbers that the source does not
print are the standard assignment (log entry 17).
-/

namespace Sys2Proof

/-- P, the primary group: bits 15..12 (30 R91). -/
def fieldP (w : Word) : Nibble := w.extractLsb' 12 4

/-- X: bits 11..8 (30 R91). -/
def fieldX (w : Word) : Reg := w.extractLsb' 8 4

/-- Y: bits 7..4 (30 R91). -/
def fieldY (w : Word) : Reg := w.extractLsb' 4 4

/-- N: bits 3..0 (30 R91). -/
def fieldN (w : Word) : Nibble := w.extractLsb' 0 4

/-- KK: the low byte (30 R91). -/
def fieldKK (w : Word) : Byte := w.extractLsb' 0 8

/-- NNN: the low twelve bits (30 R91). -/
def fieldNNN (w : Word) : Addr := w.extractLsb' 0 12

/-- Group 0: selected by KK, X ignored (30 R94, decision D17). -/
def decodeGroup0 (w : Word) : Instr :=
  match (fieldKK w).toNat with
  | 0xE0 => .cls (fieldX w)
  | 0xEE => .ret (fieldX w)
  | _ => .nop0 (fieldNNN w)

/-- Group 8: selected by N (30 R94). -/
def decodeGroup8 (w : Word) : Instr :=
  match (fieldN w).toNat with
  | 0x0 => .ldReg (fieldX w) (fieldY w)
  | 0x1 => .orReg (fieldX w) (fieldY w)
  | 0x2 => .andReg (fieldX w) (fieldY w)
  | 0x3 => .xorReg (fieldX w) (fieldY w)
  | 0x4 => .addReg (fieldX w) (fieldY w)
  | 0x5 => .sub (fieldX w) (fieldY w)
  | 0x6 => .shr (fieldX w) (fieldY w)
  | 0x7 => .subn (fieldX w) (fieldY w)
  | 0xE => .shl (fieldX w) (fieldY w)
  | _ => .nop8 (fieldNNN w)

/-- Group E: selected by KK (30 R94). -/
def decodeGroupE (w : Word) : Instr :=
  match (fieldKK w).toNat with
  | 0x9E => .skp (fieldX w)
  | 0xA1 => .sknp (fieldX w)
  | _ => .nopE (fieldNNN w)

/-- Group F: selected by KK (30 R94). -/
def decodeGroupF (w : Word) : Instr :=
  match (fieldKK w).toNat with
  | 0x07 => .ldVdt (fieldX w)
  | 0x0A => .ldK (fieldX w)
  | 0x15 => .ldDtv (fieldX w)
  | 0x18 => .ldStv (fieldX w)
  | 0x1E => .addI (fieldX w)
  | 0x29 => .ldF (fieldX w)
  | 0x33 => .ldB (fieldX w)
  | 0x55 => .stM (fieldX w)
  | 0x65 => .ldM (fieldX w)
  | _ => .nopF (fieldNNN w)

/-- The decoder on one word: dispatch on P, then on the group's selector (30 R94, R97); group F is the last of sixteen. -/
def decodeWord (w : Word) : Instr :=
  match (fieldP w).toNat with
  | 0x0 => decodeGroup0 w
  | 0x1 => .jp (fieldNNN w)
  | 0x2 => .call (fieldNNN w)
  | 0x3 => .seImm (fieldX w) (fieldKK w)
  | 0x4 => .sneImm (fieldX w) (fieldKK w)
  | 0x5 => .seReg (fieldX w) (fieldY w) (fieldN w)
  | 0x6 => .ldImm (fieldX w) (fieldKK w)
  | 0x7 => .addImm (fieldX w) (fieldKK w)
  | 0x8 => decodeGroup8 w
  | 0x9 => .sneReg (fieldX w) (fieldY w) (fieldN w)
  | 0xA => .ldI (fieldNNN w)
  | 0xB => .jpV0 (fieldNNN w)
  | 0xC => .rnd (fieldX w) (fieldKK w)
  | 0xD => .drw (fieldX w) (fieldY w) (fieldN w)
  | 0xE => decodeGroupE w
  | _ => decodeGroupF w

/-- Why a byte sequence is no instruction: only that it holds fewer than two bytes (30 R90, R97). -/
inductive DecodeError where
  /-- Fewer than two bytes: no whole word. -/
  | truncated
deriving DecidableEq, Repr

/-- The decoder on bytes as they lie in memory, the high byte first (20 R64, 30 R90); the bytes after the word are returned. -/
def decode : List Byte → Except DecodeError (Instr × List Byte)
  | hi :: lo :: rest => .ok (decodeWord (hi ++ lo), rest)
  | _ => .error .truncated

/-- Format A: P and NNN (30 R92). -/
def wordA (p : Nibble) (nnn : Addr) : Word := p ++ nnn

/-- Formats I, S and Z: P, X and KK (30 R92). -/
def wordI (p : Nibble) (x : Reg) (kk : Byte) : Word := p ++ (x ++ kk)

/-- Format R: P, X, Y and N (30 R92). -/
def wordR (p : Nibble) (x y : Reg) (n : Nibble) : Word := p ++ (x ++ (y ++ n))

/-- The word of an instruction, from the encodings of 30 R95. -/
def encode : Instr → Word
  | .cls ign => wordI 0x0 ign 0xE0
  | .ret ign => wordI 0x0 ign 0xEE
  | .jp nnn => wordA 0x1 nnn
  | .call nnn => wordA 0x2 nnn
  | .seImm x kk => wordI 0x3 x kk
  | .sneImm x kk => wordI 0x4 x kk
  | .seReg x y ign => wordR 0x5 x y ign
  | .ldImm x kk => wordI 0x6 x kk
  | .addImm x kk => wordI 0x7 x kk
  | .ldReg x y => wordR 0x8 x y 0x0
  | .orReg x y => wordR 0x8 x y 0x1
  | .andReg x y => wordR 0x8 x y 0x2
  | .xorReg x y => wordR 0x8 x y 0x3
  | .addReg x y => wordR 0x8 x y 0x4
  | .sub x y => wordR 0x8 x y 0x5
  | .shr x y => wordR 0x8 x y 0x6
  | .subn x y => wordR 0x8 x y 0x7
  | .shl x y => wordR 0x8 x y 0xE
  | .sneReg x y ign => wordR 0x9 x y ign
  | .ldI nnn => wordA 0xA nnn
  | .jpV0 nnn => wordA 0xB nnn
  | .rnd x kk => wordI 0xC x kk
  | .drw x y n => wordR 0xD x y n
  | .skp x => wordI 0xE x 0x9E
  | .sknp x => wordI 0xE x 0xA1
  | .ldVdt x => wordI 0xF x 0x07
  | .ldK x => wordI 0xF x 0x0A
  | .ldDtv x => wordI 0xF x 0x15
  | .ldStv x => wordI 0xF x 0x18
  | .addI x => wordI 0xF x 0x1E
  | .ldF x => wordI 0xF x 0x29
  | .ldB x => wordI 0xF x 0x33
  | .stM x => wordI 0xF x 0x55
  | .ldM x => wordI 0xF x 0x65
  | .nop0 bits => wordA 0x0 bits
  | .nop8 bits => wordA 0x8 bits
  | .nopE bits => wordA 0xE bits
  | .nopF bits => wordA 0xF bits

/-- A word's two bytes in memory order: bits 15..8 at the lower address (20 R64). -/
def wordBytes (w : Word) : List Byte := [w.extractLsb' 8 8, w.extractLsb' 0 8]

/-- The bytes of an instruction in memory order (20 R64, 30 R90). -/
def encodeBytes (i : Instr) : List Byte := wordBytes (encode i)

/-- The 16-bit word that spec/opcode_table.json numbers `w`: bit 0 is its least significant bit; bits at or above `nbits`
are 0. -/
def tableWord (nbits w : Nat) : Word := BitVec.ofNat 16 (w % 2 ^ nbits)

/-- The instruction the decoder reads from the bytes of a table word, laid out high byte first (20 R64). -/
def decodeTableWord (nbits w : Nat) : Option Instr :=
  match decode (wordBytes (tableWord nbits w)) with
  | .ok (i, _) => some i
  | .error _ => none

/-- One row of the opcode map: its name, its fixed bits, and which bits are fixed (30 R95). -/
structure OpcodeRow where
  mnemonic : String
  pattern : Word
  mask : Word
deriving DecidableEq, Repr

/-- Groups 0 to 7 of the opcode map (30 R95). -/
def opcodeRowsLow : List OpcodeRow :=
  [⟨"CLS", 0x00E0, 0xF0FF⟩, ⟨"RET", 0x00EE, 0xF0FF⟩, ⟨"JP", 0x1000, 0xF000⟩, ⟨"CALL", 0x2000, 0xF000⟩,
   ⟨"SE.i", 0x3000, 0xF000⟩, ⟨"SNE.i", 0x4000, 0xF000⟩, ⟨"SE.r", 0x5000, 0xF000⟩, ⟨"LD.i", 0x6000, 0xF000⟩,
   ⟨"ADD.i", 0x7000, 0xF000⟩]

/-- Group 8 of the opcode map (30 R95). -/
def opcodeRowsAlu : List OpcodeRow :=
  [⟨"LD.r", 0x8000, 0xF00F⟩, ⟨"OR", 0x8001, 0xF00F⟩, ⟨"AND", 0x8002, 0xF00F⟩, ⟨"XOR", 0x8003, 0xF00F⟩,
   ⟨"ADD.r", 0x8004, 0xF00F⟩, ⟨"SUB", 0x8005, 0xF00F⟩, ⟨"SHR", 0x8006, 0xF00F⟩, ⟨"SUBN", 0x8007, 0xF00F⟩,
   ⟨"SHL", 0x800E, 0xF00F⟩]

/-- Groups 9 to F of the opcode map (30 R95). -/
def opcodeRowsHigh : List OpcodeRow :=
  [⟨"SNE.r", 0x9000, 0xF000⟩, ⟨"LD.I", 0xA000, 0xF000⟩, ⟨"JP.V0", 0xB000, 0xF000⟩, ⟨"RND", 0xC000, 0xF000⟩,
   ⟨"DRW", 0xD000, 0xF000⟩, ⟨"SKP", 0xE09E, 0xF0FF⟩, ⟨"SKNP", 0xE0A1, 0xF0FF⟩, ⟨"LD.VDT", 0xF007, 0xF0FF⟩,
   ⟨"LD.K", 0xF00A, 0xF0FF⟩, ⟨"LD.DTV", 0xF015, 0xF0FF⟩, ⟨"LD.STV", 0xF018, 0xF0FF⟩, ⟨"ADD.I", 0xF01E, 0xF0FF⟩,
   ⟨"LD.F", 0xF029, 0xF0FF⟩, ⟨"LD.B", 0xF033, 0xF0FF⟩, ⟨"ST.M", 0xF055, 0xF0FF⟩, ⟨"LD.M", 0xF065, 0xF0FF⟩]

/-- The four no-op rows, tried after every other row (30 R95, R97; 46 R195). -/
def opcodeRowsNop : List OpcodeRow :=
  [⟨"NOP.0", 0x0000, 0xF000⟩, ⟨"NOP.8", 0x8000, 0xF000⟩, ⟨"NOP.E", 0xE000, 0xF000⟩, ⟨"NOP.F", 0xF000, 0xF000⟩]

/-- The whole opcode map in the order in which rows are tried (30 R95, R97). -/
def opcodeRows : List OpcodeRow := opcodeRowsLow ++ opcodeRowsAlu ++ opcodeRowsHigh ++ opcodeRowsNop

/-- A word matches a row when its fixed bits are the row's (30 R97). -/
def OpcodeRow.matches (r : OpcodeRow) (w : Word) : Bool := w &&& r.mask == r.pattern

/-- The first row, in the map's order, whose fixed bits the word has (30 R97). -/
def firstRow (w : Word) : Option OpcodeRow := opcodeRows.find? (fun r => r.matches w)

end Sys2Proof
end

