-- ==== Sys2Proof/Machine/Event.lean ====
section
/-!
DEFINITION. The moves of the surroundings, each an atomic transition of the machine (00_scope.md R5, 70_reset_and_hazards.md R224).
-/

namespace Sys2Proof.Machine

/-- One move of the surroundings (00 R5, 60 R204, 70 R224). -/
inductive Event where
  /-- A Step, during which the keys `keys` are held (44 R188) and `rand` is the random byte offered (60 R213). -/
  | step (keys : BitVec 16) (rand : Byte)
  /-- A Tick (44 R187). -/
  | tick
  /-- A Reset (70 R220). -/
  | reset
  /-- A LoadROM of these bytes (70 R223). -/
  | loadRom (bytes : List Byte)
deriving DecidableEq, Repr, Inhabited

end Sys2Proof.Machine
end

