-- ==== Sys2Proof/Config.lean ====
section
/-!
DEFINITION. What the surroundings supply freely, and the parameters of 00_scope.md R6 that have more than one reading.
The value each parameter takes stands in Machine/Params.lean, where a repair may change it.
-/

namespace Sys2Proof

/-- Unscripted move number `n` of the surroundings: a Step, a Tick, a Reset or a load, free in kind and in content, since any
interleaving is legal (70 R229, R224, decision D30; log entry 2). No body: nothing can be proved of its value. -/
opaque Config.eventAt : Nat → Machine.Event

/-- The keys held during a Step that `scheduleStep` puts in at number `n`: a free 16-bit vector, bit k for key k (44 R188; log
entries 1, 25). No body: nothing can be proved of its value. -/
opaque Config.keysAt : Nat → BitVec 16

/-- The random byte offered to that Step: free (42 R161, 60 R213, decision D14; log entries 1, 25). No body: nothing can be proved of its value. -/
opaque Config.randomByteAt : Nat → Byte

/-- ALU_WRITE_ORDER of 00 R6: which of the two writes of ADD.r, SUB, SHR, SUBN and SHL lands last (41 R151). -/
inductive AluWriteOrder where
  | resultThenFlag
  | flagThenResult
deriving DecidableEq, Repr

/-- SHIFT_SOURCE of 00 R6: the register SHR and SHL shift (41 R148). -/
inductive ShiftSource where
  | vx
  | vy
deriving DecidableEq, Repr

/-- DRW_OPERAND_READ of 00 R6: whether DRW reads VX and VY at each pixel or once before clearing VF (43 R171). -/
inductive DrwOperandRead where
  | live
  | latched
deriving DecidableEq, Repr

end Sys2Proof
end

