-- ==== Sys2Proof/Machine/Params.lean ====
section
/-!
DEFINITION. The values of the parameters of 00_scope.md R6, each at the default the spec gives it; FONT, which is open, has its
type and its default here, and each machine its own value in `State.font`.
-/

namespace Sys2Proof.Machine

/-- MEM_BYTES = 4096 (00 R6, 20 R63, decision D1; log entry 3). -/
def memBytes : Nat := 4096

/-- PROG_BASE, the reset value of pc and the load address (00 R6). -/
def progBase : Nat := 0x200

/-- FONT_BASE (00 R6, 20 R69). -/
def fontBase : Nat := 0x50

/-- GLYPH_BYTES (00 R6). -/
def glyphBytes : Nat := 5

/-- FONT of 00 R6 is open: 16 glyphs of GLYPH_BYTES bytes, an argument of the model (20 R70, decision D16; log entry 18). -/
abbrev Font := Vector Byte 80

/-- ROM_MAX = 4095 - 0x200 = 3583 (00 R6, 70 R223, decision D21; log entry 21). -/
def romMax : Nat := 4095 - progBase

/-- ALU_WRITE_ORDER, default result then flag (41 R151, decision D4; log entry 6). -/
def aluWriteOrder : AluWriteOrder := .resultThenFlag

/-- SHIFT_SOURCE, default VX (41 R148, decision D5; log entry 7). -/
def shiftSource : ShiftSource := .vx

/-- DRW_OPERAND_READ, default live (43 R171, decision D8; log entry 10). -/
def drwOperandRead : DrwOperandRead := .live

/-- The default of FONT, glyphs 0 to 7 (20 R70, decision D16; log entry 18). -/
def fontLow : List Byte :=
  [0xF0, 0x90, 0x90, 0x90, 0xF0,  0x20, 0x60, 0x20, 0x20, 0x70,
   0xF0, 0x10, 0xF0, 0x80, 0xF0,  0xF0, 0x10, 0xF0, 0x10, 0xF0,
   0x90, 0x90, 0xF0, 0x10, 0x10,  0xF0, 0x80, 0xF0, 0x10, 0xF0,
   0xF0, 0x80, 0xF0, 0x90, 0xF0,  0xF0, 0x10, 0x20, 0x40, 0x40]

/-- The default of FONT, glyphs 8 to F (20 R70, decision D16; log entry 18). -/
def fontHigh : List Byte :=
  [0xF0, 0x90, 0xF0, 0x90, 0xF0,  0xF0, 0x90, 0xF0, 0x10, 0xF0,
   0xF0, 0x90, 0xF0, 0x90, 0x90,  0xE0, 0x90, 0xE0, 0x90, 0xE0,
   0xF0, 0x80, 0x80, 0x80, 0xF0,  0xE0, 0x90, 0x90, 0x90, 0xE0,
   0xF0, 0x80, 0xF0, 0x80, 0xF0,  0xF0, 0x80, 0xF0, 0x80, 0x80]

/-- The default of FONT: the standard table (20 R70, decision D16; log entry 18). -/
def defaultFont : Font := ⟨(fontLow ++ fontHigh).toArray, rfl⟩

end Sys2Proof.Machine
end

