-- ==== Sys2Proof/Machine/State.lean ====
section
/-!
DEFINITION. The whole state of one machine (10_state.md R44), its reset value (10 R42, 70 R220), and why a step can stop.
-/

namespace Sys2Proof.Machine

/-- Main memory (10 R33): the cells whose byte differs from the reset contents, addresses strictly rising.
The form is `Memory.wf`, in Machine/Memory.lean. -/
abbrev Memory := List Host.Cell

/-- The framebuffer (10 R32): 32 rows of 64 one-bit pixels; pixel (px, py) is bit px of row py (log entry 23). -/
abbrev Framebuffer := Vector (BitVec 64) 32

/-- The state of 10_state.md R44, the value of the parameter FONT, and the model's own record of what
the surroundings do next. -/
structure State where
  /-- `x[0..15]` (10 R20). -/
  regs : Vector Byte 16
  /-- The program counter, stored in 16 bits (10 R23). -/
  pc : Word
  /-- The address register (10 R26). -/
  I : Word
  /-- SP, the number of return addresses held, 0..16 (10 R27). -/
  sp : Fin 17
  /-- `stack[0..15]` (10 R27). -/
  stack : Vector Word 16
  /-- DT, the delay timer (10 R28). -/
  dt : Byte
  /-- ST, the sound timer (10 R29). -/
  st : Byte
  /-- KW, the register a pending key-wait will write (10 R30). -/
  kw : Option Reg
  /-- TONE, the tone output (10 R31). -/
  tone : Bool
  /-- `mem[0..0xFFF]` (10 R33). -/
  mem : Memory
  /-- `fb[0..2047]` (10 R32). -/
  fb : Framebuffer
  /-- The model's own: this machine's value of the open parameter FONT, which no transition changes (00 R6, 10 R40; log
  entry 18). -/
  font : Font
  /-- The model's own: the surroundings' next moves, oldest first; after the last their moves are free (log entry 2). -/
  script : List Event
  /-- The model's own: how many numbers of the free sources are used up: one for each unscripted move, one for each Step that
  `scheduleStep` puts in (log entries 1, 2). -/
  draws : Nat
deriving DecidableEq, Repr

/-- Why the machine stops with a fault: never. The machine raises no exception and a step is total (60_exceptions.md R200,
R201), so this type has no constructor (log entry 33). -/
inductive Fault where
deriving DecidableEq, Repr

/-- Why an instruction is refused. -/
inductive Refusal where
  /-- The instruction has no meaning in this model. No arm raises it: all have a meaning. Safe: nothing is claimed. -/
  | notModelled (mnemonic : String)
deriving DecidableEq, Repr

/-- The state after Reset of a machine with this FONT, field by field as the table of 10_state.md R42; memory lists nothing,
since what an unlisted cell reads as is its reset content. `script` and `draws` are the model's own (log entries 1, 2). -/
def State.resetWith (f : Font) : State where
  regs := Vector.replicate 16 0
  pc := 0x200
  I := 0
  sp := 0
  stack := Vector.replicate 16 0
  dt := 0
  st := 0
  kw := none
  tone := false
  mem := []
  fb := Vector.replicate 32 0
  font := f
  script := []
  draws := 0

/-- The state after Reset, FONT at its default (20 R70; log entry 18). -/
def State.reset : State := State.resetWith defaultFont

end Sys2Proof.Machine
end

