-- ==== Sys2Proof/Machine/Memory.lean ====
section
/-!
DEFINITION. Main memory as a canonical list of cells: what an unlisted cell reads as, reading, writing, and the form.
-/

namespace Sys2Proof.Machine

/-- What a cell holds after Reset, and so what an unlisted cell reads as: FONT at 0x050..0x09F, zero elsewhere
(10 R42, 20 R69). -/
def Memory.resetByte (f : Font) (a : Nat) : Byte :=
  if fontBase ≤ a then f[a - fontBase]?.getD 0 else 0

/-- The byte in cell `a`. -/
def Memory.read (f : Font) : Memory → Nat → Byte
  | [], a => Memory.resetByte f a
  | (b, v) :: rest, a => if a = b then v else Memory.read f rest a

/-- The cell `a` holding `v` in front of `rest`, left out when `rest` reads so already: in canonical form, when `v` is its
reset content. -/
def Memory.cons (f : Font) (a : Nat) (v : Byte) (rest : Memory) : Memory :=
  if rest.read f a = v then rest else (a, v) :: rest

/-- Write `v` to cell `a`, keeping the list in its canonical form. -/
def Memory.write (f : Font) : Memory → Nat → Byte → Memory
  | [], a, v => Memory.cons f a v []
  | (b, u) :: rest, a, v =>
    if a < b then Memory.cons f a v ((b, u) :: rest)
    else if a = b then Memory.cons f a v rest
    else (b, u) :: Memory.write f rest a v

/-- The canonical form above a lower bound: addresses strictly rising from `lo`, all below 4096 (20 R63), no cell equal to
its reset content. -/
def Memory.wfFrom (f : Font) : Nat → Memory → Bool
  | _, [] => true
  | lo, (a, v) :: rest => decide (lo ≤ a) && decide (a < memBytes) && v != Memory.resetByte f a &&
    Memory.wfFrom f (a + 1) rest

/-- The canonical form of memory. -/
def Memory.wf (f : Font) (m : Memory) : Bool := Memory.wfFrom f 0 m

end Sys2Proof.Machine
end

