-- ==== Sys2Proof/Machine/Ops.lean ====
section
/-!
DEFINITION. The named operations over registers, memory, stack, screen and the surroundings' inputs.
There is no operation that takes an exception, and no return from one: the machine raises none (60_exceptions.md R200,
R206, R207).
-/

namespace Sys2Proof.Machine

/-- What a step answers. -/
abbrev Result := Host.Outcome State Fault Refusal

/-! ### General registers (10 R20, 00 R9) -/

/-- VF, register 15 (10 R22). -/
def flagReg : Reg := 15

/-- `x[r]`. -/
def State.reg (s : State) (r : Reg) : Byte := s.regs[r.toNat]'r.isLt

/-- `x[r] <- v`. -/
def State.setReg (s : State) (r : Reg) (v : Byte) : State := { s with regs := s.regs.set r.toNat v r.isLt }

/-! ### Single fields -/

/-- `I <- v` (10 R26). -/
def State.setI (s : State) (v : Word) : State := { s with I := v }

/-- `DT <- v` (10 R28). -/
def State.setDt (s : State) (v : Byte) : State := { s with dt := v }

/-- `ST <- v` (10 R29). -/
def State.setSt (s : State) (v : Byte) : State := { s with st := v }

/-- `TONE <- v` (10 R31). -/
def State.setTone (s : State) (v : Bool) : State := { s with tone := v }

/-- `KW <- v` (10 R30). -/
def State.setKw (s : State) (v : Option Reg) : State := { s with kw := v }

/-! ### The program counter (10 R23 to R25) -/

/-- `pc <- v`. -/
def State.setPc (s : State) (v : Word) : State := { s with pc := v }

/-- A natural number reduced to 12 bits with `& 0xFFF`, in the pc's 16-bit storage (10 R23). -/
def mask12 (n : Nat) : Word := BitVec.ofNat 16 (n % 4096)

/-- `(p + 2) & 0xFFF`: the address of the next word (10 R24, 40 R121). -/
def nextPc (p : Word) : Word := mask12 (p.toNat + 2)

/-- `pc <- (pc + 2) & 0xFFF`: the fetch's advance (40 R121), and what a taken skip adds (40 R126). -/
def State.advancePc (s : State) : State := s.setPc (nextPc s.pc)

/-- Skip one word when the condition holds (40 R126). -/
def State.skipIf (s : State) (c : Bool) : State := if c then s.advancePc else s

/-! ### Main memory (20 R61, R62) -/

/-- The cell an unbounded address names: `a & 0xFFF` (20 R61). -/
def cellOf (a : Nat) : Nat := a % memBytes

/-- `MemRead(a, 1)` (20 R62). -/
def State.readByte (s : State) (a : Nat) : Byte := s.mem.read s.font (cellOf a)

/-- `MemRead(a, 2)`: the first byte is the most significant, each address masked on its own (20 R62, R64). -/
def State.readWord (s : State) (a : Nat) : Word := s.readByte a ++ s.readByte (a + 1)

/-- `MemWrite(a, 1, v)` (20 R62). -/
def State.writeByte (s : State) (a : Nat) (v : Byte) : State := { s with mem := s.mem.write s.font (cellOf a) v }

/-- The bytes `bs` to the addresses from `a` upwards, in ascending order (70 R223). -/
def State.writeBytes (s : State) (a : Nat) : List Byte → State
  | [] => s
  | b :: bs => (s.writeByte a b).writeBytes (a + 1) bs

/-- The word the fetch reads (40 R121, 20 R64). -/
def State.fetchWord (s : State) : Word := s.readWord s.pc.toNat

/-! ### The call stack (10 R27) -/

/-- `Push(v)`: nothing when SP = 16. -/
def State.push (s : State) (v : Word) : State :=
  if h : s.sp.val < 16 then
    { s with stack := s.stack.set s.sp.val v h, sp := ⟨s.sp.val + 1, by omega⟩ }
  else s

/-- `Pop()`: the popped value and the state after it, or no value when SP = 0; the slot keeps its content. -/
def State.pop (s : State) : Option (Word × State) :=
  if h : 0 < s.sp.val then
    some (s.stack[s.sp.val - 1]'(by omega), { s with sp := ⟨s.sp.val - 1, by omega⟩ })
  else none

/-! ### The screen (10 R32, 43 R173) -/

/-- `FbIndex(px, py)` (43 R173). -/
def fbIndex (px py : Nat) : Nat := py * 64 + px

/-- `fb[idx]` (10 R32); false outside 0..2047, where there is no pixel. -/
def State.pixel (s : State) (idx : Nat) : Bool :=
  if h : idx / 64 < 32 then s.fb[idx / 64].getLsbD (idx % 64) else false

/-- One pixel of a row set to `b`. -/
def setRowPixel (row : BitVec 64) (px : Nat) (b : Bool) : BitVec 64 :=
  if b then row ||| BitVec.twoPow 64 px else row &&& ~~~(BitVec.twoPow 64 px)

/-- `fb[idx] <- b` (10 R32); nothing outside 0..2047. -/
def State.setPixel (s : State) (idx : Nat) (b : Bool) : State :=
  if h : idx / 64 < 32 then
    { s with fb := s.fb.set (idx / 64) (setRowPixel s.fb[idx / 64] (idx % 64) b) }
  else s

/-- Every pixel 0 (43 R170). -/
def State.clearScreen (s : State) : State := { s with fb := Vector.replicate 32 0 }

/-! ### The surroundings (10 R40, 70 R229; log entries 1, 2) -/

/-- The surroundings' next move: the first of `script`, and after the last a free one (70 R229; log entry 2). -/
def State.nextEvent (s : State) : Event :=
  match s.script with
  | e :: _ => e
  | [] => Config.eventAt s.draws

/-- The move is over: the script moves on, or one more unscripted move has been made. -/
def State.endEvent (s : State) : State :=
  match s.script with
  | _ :: rest => { s with script := rest }
  | [] => { s with draws := s.draws + 1 }

/-- The key sample of the Step under way, one vector for the whole Step (44 R188, decision D22; log entry 22). -/
def State.keys (s : State) : BitVec 16 :=
  match s.nextEvent with
  | .step keys _ => keys
  | _ => 0

/-- `KeyHeld(k)` (44 R188). -/
def State.keyHeld (s : State) (k : Nibble) : Bool := s.keys.getLsbD k.toNat

/-- `RandByte()`: the byte offered to the Step under way, at most one of which is consumed by its one RND (60 R213). -/
def State.randByte (s : State) : Byte :=
  match s.nextEvent with
  | .step _ rand => rand
  | _ => 0

/-- Whether a move of the surroundings is a Step. -/
def Event.isStep : Event → Bool
  | .step _ _ => true
  | .tick | .reset | .loadRom _ => false

/-- The state with a Step as the surroundings' next move: the script from its first Step on, and where it holds none a Step
whose keys and random byte are free. DESIGN CHOICE (log entries 1, 25): the spec leaves that byte wholly free (42 R161,
decision D14); such a Step takes its inputs at the number `draws` and uses that number up, so no later Step put here has the
same inputs by construction. -/
def State.scheduleStep (s : State) : State :=
  match s.script.dropWhile (fun e => !e.isStep) with
  | [] => { s with script := [.step (Config.keysAt s.draws) (Config.randomByteAt s.draws)], draws := s.draws + 1 }
  | e :: rest => { s with script := e :: rest }

/-- The state with a word stored at pc, no key-wait pending and a Step as the next move, so that the next step fetches it. -/
def State.placeWord (s : State) (w : Word) : State :=
  { s.scheduleStep.writeBytes s.pc.toNat (wordBytes w) with kw := none }

/-- Go on from a next state. -/
def andThen (r : Result) (f : State → State) : Result :=
  match r with
  | .next s => .next (f s)
  | .fault e => .fault e
  | .refused e => .refused e

end Sys2Proof.Machine
end

