-- ==== Sys2Proof/Machine/Operands.lean ====
section
/-!
DEFINITION. The operand forms: registers by field, immediates, addresses formed from I, key codes, glyphs, decimal digits.
-/

namespace Sys2Proof.Machine

/-- `zext_16(NNN)`: a 12-bit immediate in 16 bits (30 R93, 00 R7). -/
def zextAddr (nnn : Addr) : Word := nnn.setWidth 16

/-- `zext_16(v)`: a register value in 16 bits (42 R162, 00 R7). -/
def zextByte (v : Byte) : Word := v.setWidth 16

/-- The unmasked sum `I + k` of the one data addressing mode (45 R194); reading and writing mask it (20 R61). -/
def State.dataAddress (s : State) (k : Nat) : Nat := s.I.toNat + k

/-- `NNN + x[0]`, formed without loss and then masked (40 R130). -/
def State.indirectTarget (s : State) (nnn : Addr) : Word := mask12 (nnn.toNat + (s.reg 0).toNat)

/-- The low nibble of a register value: a key code (44 R188, decision D9; log entry 11) or a glyph number (42 R163). -/
def lowNibble (v : Byte) : Nibble := v.extractLsb' 0 4

/-- `0x50 + 5 * (v & 0x0F)`: where glyph `v`'s low nibble starts (42 R163). -/
def glyphAddress (v : Byte) : Word := BitVec.ofNat 16 (fontBase + glyphBytes * (lowNibble v).toNat)

/-- The hundreds digit (45 R190). -/
def hundredsDigit (v : Byte) : Byte := BitVec.ofNat 8 (v.toNat / 100)

/-- The tens digit (45 R190). -/
def tensDigit (v : Byte) : Byte := BitVec.ofNat 8 (v.toNat / 10 % 10)

/-- The units digit (45 R190). -/
def unitsDigit (v : Byte) : Byte := BitVec.ofNat 8 (v.toNat % 10)

/-- The register a shift reads: SHIFT_SOURCE of 00 R6 (41 R148, R150; log entry 7). -/
def shiftOperand (x y : Reg) : Reg :=
  match shiftSource with
  | .vx => x
  | .vy => y

/-- How DRW reads a coordinate register while it draws: DRW_OPERAND_READ of 00 R6 (43 R171; log entry 10). `before` is the
state before VF is cleared, `now` the state at the pixel. -/
def drawCoordinate (r : Reg) (before now : State) : Byte :=
  match drwOperandRead with
  | .live => now.reg r
  | .latched => before.reg r

end Sys2Proof.Machine
end

