-- ==== Sys2Proof/Machine/Flags.lean ====
section
/-!
DEFINITION. What is written to VF as a flag (10_state.md R34), and the order of the result's and the flag's writes.
-/

namespace Sys2Proof.Machine

/-- A flag value: 1 or 0. -/
def flagByte (c : Bool) : Byte := if c then 1 else 0

/-- Carry out of bit 7 of `a + b` (41 R146). -/
def carryFlag (a b : Byte) : Byte := flagByte (decide (a.toNat + b.toNat > 255))

/-- 1 exactly when `a` is strictly greater than `b` (41 R147, R149). -/
def greaterFlag (a b : Byte) : Byte := flagByte (decide (a.toNat > b.toNat))

/-- The bit shifted out at the bottom (41 R148). -/
def lowBitFlag (a : Byte) : Byte := flagByte (a.getLsbD 0)

/-- The bit shifted out at the top (41 R150). -/
def highBitFlag (a : Byte) : Byte := flagByte (a.getLsbD 7)

/-- Write a result to `x[r]` and a flag to `x[15]`, in the order ALU_WRITE_ORDER (41 R151; log entry 6). The arguments
were computed from operands read before either write. -/
def State.writeResultAndFlag (s : State) (r : Reg) (result flag : Byte) : State :=
  match aluWriteOrder with
  | .resultThenFlag => (s.setReg r result).setReg flagReg flag
  | .flagThenResult => (s.setReg flagReg flag).setReg r result

end Sys2Proof.Machine
end

