-- ==== Sys2Proof/Machine/Alu.lean ====
section
/-!
DEFINITION. Immediate load and add, and the register ALU group (41_load_alu.md).
-/

namespace Sys2Proof.Machine

/-- LD.i (41 R140). -/
def execLdImm (x : Reg) (kk : Byte) (s : State) : Result := .next (s.setReg x kk)

/-- ADD.i (41 R141): modulo 256, no flag. -/
def execAddImm (x : Reg) (kk : Byte) (s : State) : Result := .next (s.setReg x (s.reg x + kk))

/-- LD.r (41 R142). -/
def execLdReg (x y : Reg) (s : State) : Result := .next (s.setReg x (s.reg y))

/-- OR (41 R143): no flag (decision D6; log entry 8). -/
def execOr (x y : Reg) (s : State) : Result := .next (s.setReg x (s.reg x ||| s.reg y))

/-- AND (41 R144): no flag (decision D6; log entry 8). -/
def execAnd (x y : Reg) (s : State) : Result := .next (s.setReg x (s.reg x &&& s.reg y))

/-- XOR (41 R145): no flag (decision D6; log entry 8). -/
def execXor (x y : Reg) (s : State) : Result := .next (s.setReg x (s.reg x ^^^ s.reg y))

/-- ADD.r (41 R146, R151). -/
def execAddReg (x y : Reg) (s : State) : Result :=
  .next (s.writeResultAndFlag x (s.reg x + s.reg y) (carryFlag (s.reg x) (s.reg y)))

/-- SUB (41 R147, R151). -/
def execSub (x y : Reg) (s : State) : Result :=
  .next (s.writeResultAndFlag x (s.reg x - s.reg y) (greaterFlag (s.reg x) (s.reg y)))

/-- SHR (41 R148, R151). -/
def execShr (x y : Reg) (s : State) : Result :=
  .next (s.writeResultAndFlag x (s.reg (shiftOperand x y) >>> 1) (lowBitFlag (s.reg (shiftOperand x y))))

/-- SUBN (41 R149, R151). -/
def execSubn (x y : Reg) (s : State) : Result :=
  .next (s.writeResultAndFlag x (s.reg y - s.reg x) (greaterFlag (s.reg y) (s.reg x)))

/-- SHL (41 R150, R151). -/
def execShl (x y : Reg) (s : State) : Result :=
  .next (s.writeResultAndFlag x (s.reg (shiftOperand x y) <<< 1) (highBitFlag (s.reg (shiftOperand x y))))

end Sys2Proof.Machine
end

