-- ==== Sys2Proof/Machine/Display.lean ====
section
/-!
DEFINITION. Display instructions (43_display.md): CLS and DRW.
-/

namespace Sys2Proof.Machine

/-- CLS (43 R170). -/
def execCls (_ : Nibble) (s : State) : Result := .next s.clearScreen

/-- The cell a sprite pixel lands on, each coordinate wrapped on its own (43 R171). -/
def spriteCell (vx vy : Byte) (row bit : Nat) : Nat := fbIndex ((vx.toNat + bit) % 64) ((vy.toNat + row) % 32)

/-- The sprite bit of loop index `bit`: index 0 is the most significant bit (43 R171, decision D7; log entry 9). -/
def spriteBit (byte : Byte) (bit : Nat) : Bool := byte.getLsbD (7 - bit)

/-- One pixel onto cell `idx`: VF <- 1 on a collision, then the XOR (43 R171). -/
def State.xorPixel (s : State) (idx : Nat) (b : Bool) : State :=
  (if b && s.pixel idx then s.setReg flagReg 1 else s).setPixel idx (s.pixel idx ^^ b)

/-- The body of DRW's inner loop (43 R171). -/
def drawPixel (before : State) (x y : Reg) (byte : Byte) (row : Nat) (s : State) (bit : Nat) : State :=
  s.xorPixel (spriteCell (drawCoordinate x before s) (drawCoordinate y before s) row bit) (spriteBit byte bit)

/-- The body of DRW's outer loop: read the row's byte and draw its eight pixels (43 R171). -/
def drawRow (before : State) (x y : Reg) (s : State) (row : Nat) : State :=
  (List.range 8).foldl (drawPixel before x y (s.readByte (s.dataAddress row)) row) s

/-- DRW (43 R171): clear VF, then draw N rows. -/
def execDrw (x y : Reg) (n : Nibble) (s : State) : Result :=
  .next ((List.range n.toNat).foldl (drawRow s x y) (s.setReg flagReg 0))

end Sys2Proof.Machine
end

