-- ==== Sys2Proof/Machine/Flow.lean ====
section
/-!
DEFINITION. Control transfer: RET, JP, CALL, the four skips, JP.V0 (40_step_and_flow.md). The pc a meaning sees is the
post-fetch pc (10 R24).
-/

namespace Sys2Proof.Machine

/-- RET (40 R123): pop into pc; nothing when the stack is empty. -/
def execRet (_ : Nibble) (s : State) : Result :=
  match s.pop with
  | some (target, t) => .next (t.setPc target)
  | none => .next s

/-- JP (40 R124). -/
def execJp (nnn : Addr) (s : State) : Result := .next (s.setPc (zextAddr nnn))

/-- CALL (40 R125): push the post-fetch pc, which is dropped when the stack is full, and jump in either case. -/
def execCall (nnn : Addr) (s : State) : Result := .next ((s.push s.pc).setPc (zextAddr nnn))

/-- SE.i (40 R126). -/
def execSeImm (x : Reg) (kk : Byte) (s : State) : Result := .next (s.skipIf (s.reg x == kk))

/-- SNE.i (40 R127). -/
def execSneImm (x : Reg) (kk : Byte) (s : State) : Result := .next (s.skipIf (s.reg x != kk))

/-- SE.r (40 R128); the N nibble is ignored. -/
def execSeReg (x y : Reg) (_ : Nibble) (s : State) : Result := .next (s.skipIf (s.reg x == s.reg y))

/-- SNE.r (40 R129); the N nibble is ignored. -/
def execSneReg (x y : Reg) (_ : Nibble) (s : State) : Result := .next (s.skipIf (s.reg x != s.reg y))

/-- JP.V0 (40 R130). -/
def execJpV0 (nnn : Addr) (s : State) : Result := .next (s.setPc (s.indirectTarget nnn))

end Sys2Proof.Machine
end

