-- ==== Sys2Proof/Machine/Index.lean ====
section
/-!
DEFINITION. Address-register and random instructions (42_index_random.md).
-/

namespace Sys2Proof.Machine

/-- LD.I (42 R160). -/
def execLdI (nnn : Addr) (s : State) : Result := .next (s.setI (zextAddr nnn))

/-- RND (42 R161): the random byte offered to this Step, under the mask. -/
def execRnd (x : Reg) (kk : Byte) (s : State) : Result := .next (s.setReg x (s.randByte &&& kk))

/-- ADD.I (42 R162): modulo 65536, not masked when stored, no flag (decision D10; log entry 12). -/
def execAddI (x : Reg) (s : State) : Result := .next (s.setI (s.I + zextByte (s.reg x)))

/-- LD.F (42 R163). -/
def execLdF (x : Reg) (s : State) : Result := .next (s.setI (glyphAddress (s.reg x)))

end Sys2Proof.Machine
end

