-- ==== Sys2Proof/Machine/Keypad.lean ====
section
/-!
DEFINITION. Keypad and timer instructions and the key-poll step (44_keypad_timers.md).
-/

namespace Sys2Proof.Machine

/-- SKP (44 R180). -/
def execSkp (x : Reg) (s : State) : Result := .next (s.skipIf (s.keyHeld (lowNibble (s.reg x))))

/-- SKNP (44 R181). -/
def execSknp (x : Reg) (s : State) : Result := .next (s.skipIf (!s.keyHeld (lowNibble (s.reg x))))

/-- LD.VDT (44 R182). -/
def execLdVdt (x : Reg) (s : State) : Result := .next (s.setReg x s.dt)

/-- LD.K (44 R183): only the key-wait begins; no key is queried and no register written. -/
def execLdK (x : Reg) (s : State) : Result := .next (s.setKw (some x))

/-- LD.DTV (44 R185). -/
def execLdDtv (x : Reg) (s : State) : Result := .next (s.setDt (s.reg x))

/-- LD.STV (44 R186): TONE does not change until the next Tick. -/
def execLdStv (x : Reg) (s : State) : Result := .next (s.setSt (s.reg x))

/-- The 16 key codes in ascending order (44 R184). -/
def keyCodes : List Nibble := (List.range 16).map (BitVec.ofNat 4)

/-- The lowest held key (44 R184). -/
def State.firstKey (s : State) : Option Nibble := keyCodes.find? s.keyHeld

/-- KeyPoll (44 R184) while register `r` waits: the lowest held key ends the wait; with none held nothing changes. -/
def State.keyPoll (s : State) (r : Reg) : State :=
  match s.firstKey with
  | some k => (s.setReg r (k.setWidth 8)).setKw none
  | none => s

end Sys2Proof.Machine
end

