-- ==== Sys2Proof/Machine/Nop.lean ====
section
/-!
DEFINITION. The unrecognised patterns (46_unrecognised.md R195): explicit no-ops; only the fetch's advance of pc remains.
-/

namespace Sys2Proof.Machine

/-- NOP.0 (46 R195). -/
def execNop0 (_ : BitVec 12) (s : State) : Result := .next s

/-- NOP.8 (46 R195). -/
def execNop8 (_ : BitVec 12) (s : State) : Result := .next s

/-- NOP.E (46 R195). -/
def execNopE (_ : BitVec 12) (s : State) : Result := .next s

/-- NOP.F (46 R195). -/
def execNopF (_ : BitVec 12) (s : State) : Result := .next s

end Sys2Proof.Machine
end

