-- ==== Sys2Proof/Machine/Transfer.lean ====
section
/-!
DEFINITION. Memory instructions (45_memory_ops.md): LD.B, ST.M, LD.M. None writes I (45 R193; log entry 13).
-/

namespace Sys2Proof.Machine

/-- LD.B (45 R190): hundreds, tens, units to I, I+1, I+2. -/
def execLdB (x : Reg) (s : State) : Result :=
  .next (s.writeBytes (s.dataAddress 0) [hundredsDigit (s.reg x), tensDigit (s.reg x), unitsDigit (s.reg x)])

/-- One transfer of ST.M: `x[k]` to address I + k (45 R191). -/
def storeReg (s : State) (k : Nat) : State := s.writeByte (s.dataAddress k) (s.reg (BitVec.ofNat 4 k))

/-- ST.M (45 R191): registers 0 to X in ascending order. -/
def execStM (x : Reg) (s : State) : Result := .next ((List.range (x.toNat + 1)).foldl storeReg s)

/-- One transfer of LD.M: the byte at I + k to `x[k]` (45 R192). -/
def loadReg (s : State) (k : Nat) : State := s.setReg (BitVec.ofNat 4 k) (s.readByte (s.dataAddress k))

/-- LD.M (45 R192): registers 0 to X in ascending order. -/
def execLdM (x : Reg) (s : State) : Result := .next ((List.range (x.toNat + 1)).foldl loadReg s)

end Sys2Proof.Machine
end

