-- ==== Sys2Proof/Machine/Surroundings.lean ====
section
/-!
DEFINITION. The transitions the surroundings issue besides Step: Tick (44 R187), Reset (70 R220), LoadROM (70 R223).
-/

namespace Sys2Proof.Machine

/-- A timer counts down and stops at 0 (44 R187). -/
def countDown (v : Byte) : Byte := if v = 0 then 0 else v - 1

/-- Tick (44 R187): both timers, then TONE from ST after its decrement; legal in every state (decision D12; log entry 14). -/
def State.tick (s : State) : State :=
  ((s.setDt (countDown s.dt)).setSt (countDown s.st)).setTone (countDown s.st != 0)

/-- Reset (70 R220): the state of 10 R42; FONT is the machine's, and what the
surroundings do next is theirs: both stay (log entries 18, 29). -/
def State.doReset (s : State) : State := { State.resetWith s.font with script := s.script, draws := s.draws }

/-- Why LoadROM refuses an image (60 R202, 70 R223): reported to the caller, outside the machine's state. -/
inductive LoadError where
  /-- More than ROM_MAX bytes. -/
  | imageTooLarge
deriving DecidableEq, Repr

/-- LoadROM (70 R223): the bytes to 0x200 upwards, or an error when there are more than ROM_MAX of them. -/
def State.loadRom (s : State) (bytes : List Byte) : Except LoadError State :=
  if bytes.length ≤ romMax then .ok (s.writeBytes progBase bytes) else .error .imageTooLarge

/-- What LoadROM leaves of the machine: a refused load changes nothing (70 R223; log entry 21). -/
def State.afterLoad (s : State) (bytes : List Byte) : State :=
  match s.loadRom bytes with
  | .ok t => t
  | .error _ => s

end Sys2Proof.Machine
end

