-- ==== Sys2Proof/Machine/Step.lean ====
section
/-!
DEFINITION. One step of the machine in its surroundings: the next event, performed whole (00_scope.md R5, 40 R120, 70 R224).
-/

namespace Sys2Proof.Machine

/-- Step (40 R120): a key poll while a key-wait is pending, else fetch, advance pc, execute. -/
def coreStep (s : State) : Host.Outcome State Fault Refusal :=
  match s.kw with
  | some r => .next (s.keyPoll r)
  | none => exec (decodeWord s.fetchWord) s.advancePc

/-- One event of the surroundings, whole (00 R5), after which it is over. -/
def step (s : State) : Host.Outcome State Fault Refusal :=
  match s.nextEvent with
  | .step _ _ => andThen (coreStep s) State.endEvent
  | .tick => .next s.tick.endEvent
  | .reset => .next s.doReset.endEvent
  | .loadRom bytes => .next (s.afterLoad bytes).endEvent

/-- The state with the instruction of a table word placed where `step` fetches next; it stands for a load (log entry 25). -/
def State.withFetchWord (s : State) (nbits w : Nat) : State := s.placeWord (tableWord nbits w)

end Sys2Proof.Machine
end

