-- ==== Sys2Proof/Safety.lean ====
section
/-!
DEFINITION. The terms claims use: what a transition leaves unchanged, the invariant every transition keeps, what it is for a
pixel to be under a sprite, and what a finished program is.
-/

namespace Sys2Proof.Machine

/-- One piece of the machine's state (10_state.md R44), or the model's record of the surroundings. -/
inductive Part where
  | reg (r : Reg)
  | pc
  | I
  | sp
  | slot (k : Fin 16)
  | dt
  | st
  | kw
  | tone
  /-- The memory cell at a masked address (20 R61). -/
  | byte (a : Addr)
  /-- The pixel with index `idx` (43 R173). -/
  | pixel (idx : Nat)
  /-- The value of the parameter FONT. -/
  | font
  /-- `script` and `draws`. -/
  | surroundings

/-- Two states agree on a part. -/
def Part.same (s t : State) : Part → Prop
  | .reg r => t.reg r = s.reg r
  | .pc => t.pc = s.pc
  | .I => t.I = s.I
  | .sp => t.sp = s.sp
  | .slot k => t.stack[k] = s.stack[k]
  | .dt => t.dt = s.dt
  | .st => t.st = s.st
  | .kw => t.kw = s.kw
  | .tone => t.tone = s.tone
  | .byte a => t.readByte a.toNat = s.readByte a.toNat
  | .pixel idx => t.pixel idx = s.pixel idx
  | .font => t.font = s.font
  | .surroundings => t.script = s.script ∧ t.draws = s.draws

/-- Every part outside `may` is the same in `t` as in `s`: the frame of a transition from `s` to `t`. -/
def OnlyChanges (s t : State) (may : Part → Prop) : Prop := ∀ p, ¬ may p → p.same s t

/-- The record of the surroundings in `t` is that of `s` after one event: the first of the script is gone, or, the script being
empty, one more unscripted move is counted. -/
def EventOver (s t : State) : Prop :=
  t.script = s.script.tail ∧ t.draws = if s.script = [] then s.draws + 1 else s.draws

/-- The frame in which nothing may change. -/
def nothing : Part → Prop := fun _ => False

/-- The memory cell that the unbounded address `n` names, as a part (20 R61). -/
def cellPart (n : Nat) : Part := .byte (BitVec.ofNat 12 n)

/-- The general registers an instruction may write: VX as a destination, VF as a flag, V0 to VX in LD.M (10 R21, R34). -/
def WritesReg (i : Instr) (r : Reg) : Prop :=
  match i with
  | .ldImm x _ | .addImm x _ | .ldReg x _ | .orReg x _ | .andReg x _ | .xorReg x _ | .rnd x _ | .ldVdt x => r = x
  | .addReg x _ | .sub x _ | .shr x _ | .subn x _ | .shl x _ => r = x ∨ r = flagReg
  | .drw _ _ _ => r = flagReg
  | .ldM x => r.toNat ≤ x.toNat
  | .cls _ | .ret _ | .jp _ | .call _ | .seImm _ _ | .sneImm _ _ | .seReg _ _ _ | .sneReg _ _ _ | .ldI _ | .jpV0 _
  | .skp _ | .sknp _ | .ldK _ | .ldDtv _ | .ldStv _ | .addI _ | .ldF _ | .ldB _ | .stM _
  | .nop0 _ | .nop8 _ | .nopE _ | .nopF _ => False

/-- What holds in every state a run reaches: pc and every stack slot in 0..0xFFF (10 R23, R27), memory in its canonical form
with every cell inside the 4096. SP in 0..16 (10 R27) is in the type of the field. -/
abbrev State.Inv (s : State) : Prop :=
  s.pc.toNat < 4096 ∧ (∀ k : Fin 16, s.stack[k].toNat < 4096) ∧ s.mem.wf s.font = true

/-- A finished program (70 R225, decision D19; log entry 31): the word at pc is a jump to pc, and no key-wait is pending. -/
abbrev State.Finished (s : State) (a : Addr) : Prop :=
  s.pc = zextAddr a ∧ s.kw = none ∧ decodeWord s.fetchWord = .jp a

/-- A row of the opcode map with its operands (30 R95): every word with the row's fixed bits decodes to the row's instruction. -/
def Encodes (pattern mask : Word) (row : Word → Instr) : Prop := ∀ w : Word, w &&& mask = pattern → decodeWord w = row w

/-- Whether some 1 bit of the sprite of `n` rows at I lands on the pixel `idx`, with its top left corner at column `vx` and
row `vy` (43 R171). -/
def SpriteCovers (s : State) (vx vy : Byte) (n idx : Nat) : Prop :=
  ∃ row < n, ∃ bit < 8, (s.readByte (s.I.toNat + row)).getLsbD (7 - bit) = true ∧
    idx = fbIndex ((vx.toNat + bit) % 64) ((vy.toNat + row) % 32)

/-- Whether the sprite at I has a 1 bit at its position `k`, positions numbered in the order DRW draws them: row `k / 8`, loop
index `k % 8` (43 R171). -/
def SpriteHasBit (s : State) (k : Nat) : Prop := (s.readByte (s.I.toNat + k / 8)).getLsbD (7 - k % 8) = true

/-- The pixel that position `k` lands on, the sprite's top left corner at column `vx` and row `vy` (43 R171). -/
def spritePixelAt (vx vy : Byte) (k : Nat) : Nat := fbIndex ((vx.toNat + k % 8) % 64) ((vy.toNat + k / 8) % 32)

/-- Whether some 1 bit among the positions from `lo` up to but not `hi` lands on the pixel `idx`. -/
def SpriteCoversBetween (s : State) (vx vy : Byte) (lo hi idx : Nat) : Prop :=
  ∃ k, lo ≤ k ∧ k < hi ∧ SpriteHasBit s k ∧ idx = spritePixelAt vx vy k

/-- Whether the sprite covers a pixel that is lit: a collision (43 R171). -/
def SpriteCollides (s : State) (vx vy : Byte) (n : Nat) : Prop :=
  ∃ idx, SpriteCovers s vx vy n idx ∧ s.pixel idx = true

end Sys2Proof.Machine
end

