-- ==== Sys2Proof/Certificates/Slice0/Obligations.lean ====
section
/-!
DEFINITION. The statements about the model, from the numbered rules of spec/. `s` is the state an instruction sees, after
the fetch has moved pc to the following word (10_state.md R24), unless a statement speaks of `step`.
Each frame is `OnlyChanges s t may`: every register, flag, special register, stack slot, memory cell, pixel, the FONT and the
record of the surroundings that is not in `may` is unchanged. `EventOver s t` says how one event moves that record on.
-/

open Sys2Proof Sys2Proof.Machine

/-! ### Reset, load, tick -/

/-- 70 R221: where execution starts after Reset. -/
def Obligations.ResetEntryPointIsFixed : Prop :=
  State.reset.pc = 0x200 ∧ State.reset.sp.val = 0 ∧ State.reset.kw = none ∧ (∀ r, State.reset.reg r = 0) ∧
    State.reset.I = 0 ∧ State.reset.dt = 0 ∧ State.reset.st = 0 ∧ ∀ idx, State.reset.pixel idx = false

/-- 10 R42 and 20 R69: memory, stack slots and TONE after Reset, for every value of the open parameter FONT (00 R6); that the
reset state has the default table is decision D16 (log entry 18). The existence of cell 0xFFF (D1, log entry 3) and TONE = 0
(D13, log entry 15) are decisions, not the source's. -/
def Obligations.ResetMemoryHoldsFontAndZero : Prop :=
  (∀ (f : Font) (a : Addr), (State.resetWith f).readByte a.toNat =
    if h : 0x50 ≤ a.toNat ∧ a.toNat < 0xA0 then f[a.toNat - 0x50]'(by omega) else 0) ∧
    State.reset = State.resetWith defaultFont ∧ (∀ k : Fin 16, State.reset.stack[k] = 0) ∧ State.reset.tone = false

/-- 70 R220: a Reset event, from any state and scripted or not, leaves the reset state of the machine's own FONT; the
surroundings' record is theirs and moves on (log entry 29). TONE = 0 is decision D13 (log entry 15). -/
def Obligations.ResetEventRestoresResetState : Prop :=
  ∀ s : State, s.nextEvent = .reset →
    step s = .next { State.resetWith s.font with
      script := s.script.tail, draws := if s.script = [] then s.draws + 1 else s.draws }

/-- 44 R187: a Tick, in any state, a key-wait included (decision D12, log entry 14), counts both timers down to 0 and no
further and sets TONE from ST after the decrement (D13, log entry 15); it touches nothing else. -/
def Obligations.TickCountsTimersDownAndSetsTone : Prop :=
  ∀ s : State, s.nextEvent = .tick →
    ∃ t, step s = .next t ∧ t.dt.toNat = s.dt.toNat - 1 ∧ t.st.toNat = s.st.toNat - 1 ∧
      (t.tone = true ↔ t.st ≠ 0) ∧ EventOver s t ∧
      OnlyChanges s t (fun p => p = .dt ∨ p = .st ∨ p = .tone ∨ p = .surroundings)

/-- 70 R223: an image of at most 3583 bytes (decision D21, log entry 21) is placed from 0x200 upwards, and nothing else
changes. -/
def Obligations.LoadPlacesImageFrom200 : Prop :=
  ∀ (s : State) (bytes : List Byte), s.nextEvent = .loadRom bytes → bytes.length ≤ 3583 →
    ∃ t, step s = .next t ∧ (∀ k, (h : k < bytes.length) → t.readByte (0x200 + k) = bytes[k]) ∧ EventOver s t ∧
      OnlyChanges s t (fun p => p = .surroundings ∨ ∃ k < bytes.length, p = cellPart (0x200 + k))

/-- 70 R223 and 60 R202: a larger image changes nothing of the machine (decision D21, log entry 21). -/
def Obligations.LoadTooLargeChangesNothing : Prop :=
  ∀ (s : State) (bytes : List Byte), s.nextEvent = .loadRom bytes → 3583 < bytes.length →
    step s = .next { s with script := s.script.tail, draws := if s.script = [] then s.draws + 1 else s.draws }

/-! ### The step -/

/-- 40 R120, R121, R122: when the surroundings issue a Step, no key-wait is pending, and the two bytes at pc (each address
masked, decision D2, log entry 4) decode to an instruction, `step` is `exec` of it with pc moved past the word, and then the
end of the event: the script moves on, or one more unscripted move is counted. -/
def Obligations.StepRunsDecodedInstruction : Prop :=
  (∀ (s : State) (keys : BitVec 16) (rand : Byte) (i : Instr), s.nextEvent = .step keys rand → s.kw = none →
    decode [s.readByte s.pc.toNat, s.readByte (s.pc.toNat + 1)] = .ok (i, []) → i.wellFormed = true →
    step s = andThen (exec i { s with pc := BitVec.ofNat 16 ((s.pc.toNat + 2) % 4096) }) State.endEvent) ∧
  ∀ u : State, u.endEvent = { u with script := u.script.tail, draws := if u.script = [] then u.draws + 1 else u.draws }

/-- 20 R64 and R61: the fetched word is big-endian, and every address is taken modulo 4096 (decisions D1, D2; log entries 3,
4). -/
def Obligations.FetchIsBigEndianAndMasked : Prop :=
  ∀ s : State, s.fetchWord.toNat = 256 * (s.readByte s.pc.toNat).toNat + (s.readByte (s.pc.toNat + 1)).toNat ∧
    ∀ a, s.readByte (a + 4096) = s.readByte a

/-- 44 R184: the key-poll step takes the lowest held key and ends the wait; with no key held nothing changes; it neither
fetches nor executes, and the surroundings' record moves on by the one Step. -/
def Obligations.KeyPollTakesLowestHeldKey : Prop :=
  ∀ (s : State) (keys : BitVec 16) (rand : Byte) (r : Reg), s.nextEvent = .step keys rand → s.kw = some r →
    (∀ k : Nibble, keys.getLsbD k.toNat = true → (∀ j : Nibble, j.toNat < k.toNat → keys.getLsbD j.toNat = false) →
      ∃ t, step s = .next t ∧ (t.reg r).toNat = k.toNat ∧ t.kw = none ∧ EventOver s t ∧
        OnlyChanges s t (fun p => p = .reg r ∨ p = .kw ∨ p = .surroundings)) ∧
    ((∀ k : Nibble, keys.getLsbD k.toNat = false) →
      ∃ t, step s = .next t ∧ EventOver s t ∧ OnlyChanges s t (fun p => p = .surroundings))

/-- 60 R200 (and 70 R225): a step is total; no state and no event ends in a fault or a refusal. -/
def Obligations.EveryStepHasNextState : Prop := ∀ s : State, ∃ t, step s = .next t

/-- 40 R120: a Step changes DT and ST only through LD.DTV and LD.STV, and never TONE. -/
def Obligations.StepNeverCountsTimers : Prop :=
  ∀ (s t : State) (keys : BitVec 16) (rand : Byte), s.nextEvent = .step keys rand → step s = .next t →
    ((s.kw ≠ none ∨ ∀ x, decodeWord s.fetchWord ≠ .ldDtv x) → t.dt = s.dt) ∧
    ((s.kw ≠ none ∨ ∀ x, decodeWord s.fetchWord ≠ .ldStv x) → t.st = s.st) ∧ t.tone = s.tone

/-- 70 R225 (decision D19, log entry 31): in a finished state a Step changes nothing of the machine. -/
def Obligations.FinishedStateStaysFinished : Prop :=
  ∀ (s : State) (a : Addr) (keys : BitVec 16) (rand : Byte), s.Finished a → s.nextEvent = .step keys rand →
    ∃ t, step s = .next t ∧ EventOver s t ∧ OnlyChanges s t (fun p => p = .surroundings) ∧ t.Finished a

/-- 10 R23, R27 and 20 R63: every event keeps the invariant: pc and every stack slot in 0..0xFFF, memory in canonical form.
The form of memory is the model's own. -/
def Obligations.EveryStepKeepsStateInRange : Prop := ∀ s t : State, s.Inv → step s = .next t → t.Inv

/-- The invariant holds at reset. -/
def Obligations.ResetStateIsInRange : Prop := State.reset.Inv

/-! ### Which instructions may change which state -/

/-- 10 R32: the framebuffer is changed by CLS and DRW only. -/
def Obligations.ScreenChangedOnlyByClearAndDraw : Prop :=
  ∀ (i : Instr) (s t : State), exec i s = .next t → (∀ g, i ≠ .cls g) → (∀ x y n, i ≠ .drw x y n) →
    ∀ idx, t.pixel idx = s.pixel idx

/-- 20 R60, R66: memory is written by LD.B and ST.M only. -/
def Obligations.MemoryWrittenOnlyByStores : Prop :=
  ∀ (i : Instr) (s t : State), exec i s = .next t → (∀ x, i ≠ .ldB x) → (∀ x, i ≠ .stM x) →
    ∀ a, t.readByte a = s.readByte a

/-- 10 R27: SP and the slots are changed by CALL and RET only, and the slots by CALL only. -/
def Obligations.StackChangedOnlyByCallAndReturn : Prop :=
  ∀ (i : Instr) (s t : State), exec i s = .next t → (∀ a, i ≠ .call a) →
    t.stack = s.stack ∧ ((∀ g, i ≠ .ret g) → t.sp = s.sp)

/-- 10 R26: I is written by LD.I, ADD.I and LD.F only. -/
def Obligations.AddressRegisterWrittenByThree : Prop :=
  ∀ (i : Instr) (s t : State), exec i s = .next t → (∀ a, i ≠ .ldI a) → (∀ x, i ≠ .addI x) → (∀ x, i ≠ .ldF x) →
    t.I = s.I

/-- 10 R25: every instruction but the jumps, CALL, RET and the skips leaves the post-fetch pc. -/
def Obligations.PcChangedOnlyByControlTransfer : Prop :=
  ∀ (i : Instr) (s t : State), exec i s = .next t →
    (∀ g, i ≠ .ret g) → (∀ a, i ≠ .jp a) → (∀ a, i ≠ .call a) → (∀ a, i ≠ .jpV0 a) →
    (∀ x k, i ≠ .seImm x k) → (∀ x k, i ≠ .sneImm x k) →
    (∀ x y g, i ≠ .seReg x y g) → (∀ x y g, i ≠ .sneReg x y g) →
    (∀ x, i ≠ .skp x) → (∀ x, i ≠ .sknp x) → t.pc = s.pc

/-- 10 R28 to R31: an instruction changes DT, ST and KW only if it is LD.DTV, LD.STV and LD.K, and none changes TONE. -/
def Obligations.TimersAndKeyWaitHaveOneWriterEach : Prop :=
  ∀ (i : Instr) (s t : State), exec i s = .next t →
    ((∀ x, i ≠ .ldDtv x) → t.dt = s.dt) ∧ ((∀ x, i ≠ .ldStv x) → t.st = s.st) ∧
    ((∀ x, i ≠ .ldK x) → t.kw = s.kw) ∧ t.tone = s.tone

/-- 10 R21, R34: an instruction leaves every general register alone, VF among them, that it does not name as its
destination, load as part of V0..VX, or use as its flag. -/
def Obligations.RegistersHaveOnlyTheirNamedWriters : Prop :=
  ∀ (i : Instr) (s t : State) (r : Reg), exec i s = .next t → ¬ WritesReg i r → t.reg r = s.reg r

/-- 10 R40, 44 R188, 60 R213: only SKP, SKNP and RND depend on what the surroundings offer; every other instruction does
the same whatever the keys, the random byte and the schedule are. -/
def Obligations.OnlyThreeInstructionsReadInputs : Prop :=
  ∀ (i : Instr) (s : State) (script : List Event) (draws : Nat),
    (∀ x, i ≠ .skp x) → (∀ x, i ≠ .sknp x) → (∀ x k, i ≠ .rnd x k) →
    exec i { s with script := script, draws := draws } =
      andThen (exec i s) (fun t => { t with script := script, draws := draws })

/-- 10 R26: no instruction can observe bits 15..12 of I: two states that differ in them only are taken to states that differ
at most in those bits of I. -/
def Obligations.UpperAddressBitsAreUnobservable : Prop :=
  ∀ (i : Instr) (s t : State) (v : Word), v.toNat % 4096 = s.I.toNat % 4096 → exec i s = .next t →
    ∃ w : Word, w.toNat % 4096 = t.I.toNat % 4096 ∧ exec i { s with I := v } = .next { t with I := w }

/-! ### Control transfer -/

/-- 40 R123: RET pops into pc; with the stack empty it changes nothing. Which slot is the top is decision D3 (log entry 5). -/
def Obligations.ReturnPopsOrFallsThrough : Prop :=
  ∀ (g : Nibble) (s : State),
    (∀ h : 0 < s.sp.val, ∃ t, exec (.ret g) s = .next t ∧ t.pc = s.stack[s.sp.val - 1]'(by omega) ∧
      t.sp.val = s.sp.val - 1 ∧ OnlyChanges s t (fun p => p = .pc ∨ p = .sp)) ∧
    (s.sp.val = 0 → exec (.ret g) s = .next s)

/-- 40 R124: JP. -/
def Obligations.JumpSetsPcToTarget : Prop :=
  ∀ (nnn : Addr) (s : State), ∃ t, exec (.jp nnn) s = .next t ∧ t.pc.toNat = nnn.toNat ∧ OnlyChanges s t (fun p => p = .pc)

/-- 40 R125: CALL jumps in every case and pushes the post-fetch pc unless the stack is full. Which slot is written is decision
D3 (log entry 5). -/
def Obligations.CallPushesPostFetchPcAndJumps : Prop :=
  ∀ (nnn : Addr) (s : State), ∃ t, exec (.call nnn) s = .next t ∧ t.pc.toNat = nnn.toNat ∧
    (∀ h : s.sp.val < 16, t.stack[s.sp.val] = s.pc ∧ t.sp.val = s.sp.val + 1 ∧
      OnlyChanges s t (fun p => p = .pc ∨ p = .sp ∨ p = .slot ⟨s.sp.val, h⟩)) ∧
    (s.sp.val = 16 → OnlyChanges s t (fun p => p = .pc))

/-- 40 R123, R125: a return straight after a call, wherever pc then is, comes back to the word after the call and to the
same depth; after a 17th nested call it goes to the 16th call's return address, one level shallower. Which slot is the top
is decision D3 (log entry 5). -/
def Obligations.CallThenReturnComesBack : Prop :=
  ∀ (nnn : Addr) (g : Nibble) (s u : State) (p : Word), exec (.call nnn) s = .next u →
    ∃ t, exec (.ret g) { u with pc := p } = .next t ∧
      (s.sp.val < 16 → t.pc = s.pc ∧ t.sp = s.sp) ∧ (s.sp.val = 16 → t.pc = s.stack[15] ∧ t.sp.val = 15)

/-- 40 R126, R127: SE.i and SNE.i skip one word when VX equals, or differs from, KK. -/
def Obligations.ImmediateSkipsMovePcOnly : Prop :=
  ∀ (x : Reg) (kk : Byte) (s : State),
    (∃ t, exec (.seImm x kk) s = .next t ∧
      t.pc = (if s.reg x = kk then BitVec.ofNat 16 ((s.pc.toNat + 2) % 4096) else s.pc) ∧
      OnlyChanges s t (fun p => p = .pc)) ∧
    (∃ t, exec (.sneImm x kk) s = .next t ∧
      t.pc = (if s.reg x = kk then s.pc else BitVec.ofNat 16 ((s.pc.toNat + 2) % 4096)) ∧
      OnlyChanges s t (fun p => p = .pc))

/-- 40 R128, R129: SE.r and SNE.r skip one word when VX equals, or differs from, VY, whatever the ignored N nibble is. -/
def Obligations.RegisterSkipsMovePcOnly : Prop :=
  ∀ (x y : Reg) (g : Nibble) (s : State),
    (∃ t, exec (.seReg x y g) s = .next t ∧
      t.pc = (if s.reg x = s.reg y then BitVec.ofNat 16 ((s.pc.toNat + 2) % 4096) else s.pc) ∧
      OnlyChanges s t (fun p => p = .pc)) ∧
    (∃ t, exec (.sneReg x y g) s = .next t ∧
      t.pc = (if s.reg x = s.reg y then s.pc else BitVec.ofNat 16 ((s.pc.toNat + 2) % 4096)) ∧
      OnlyChanges s t (fun p => p = .pc))

/-- 40 R130: JP.V0. -/
def Obligations.IndirectJumpAddsV0AndMasks : Prop :=
  ∀ (nnn : Addr) (s : State), ∃ t, exec (.jpV0 nnn) s = .next t ∧
    t.pc.toNat = (nnn.toNat + (s.reg 0).toNat) % 4096 ∧ OnlyChanges s t (fun p => p = .pc)

/-! ### Immediate load and add, the register ALU group -/

/-- 41 R140, R141: the words of LD.i and ADD.i, which write VX and no flag. -/
def Obligations.ImmediateLoadAndAddWriteVx : Prop :=
  Encodes 0x6000 0xF000 (fun w => .ldImm (fieldX w) (fieldKK w)) ∧
  Encodes 0x7000 0xF000 (fun w => .addImm (fieldX w) (fieldKK w)) ∧
  ∀ (x : Reg) (kk : Byte) (s : State),
    (∃ t, exec (.ldImm x kk) s = .next t ∧ t.reg x = kk ∧ OnlyChanges s t (fun p => p = .reg x)) ∧
    (∃ t, exec (.addImm x kk) s = .next t ∧ (t.reg x).toNat = ((s.reg x).toNat + kk.toNat) % 256 ∧
      OnlyChanges s t (fun p => p = .reg x))

/-- 41 R142 to R145: LD.r, OR, AND and XOR write VX and no flag. -/
def Obligations.CopyAndLogicWriteVxWithoutFlag : Prop :=
  ∀ (x y : Reg) (s : State),
    (∃ t, exec (.ldReg x y) s = .next t ∧ t.reg x = s.reg y ∧ OnlyChanges s t (fun p => p = .reg x)) ∧
    (∃ t, exec (.orReg x y) s = .next t ∧ t.reg x = s.reg x ||| s.reg y ∧ OnlyChanges s t (fun p => p = .reg x)) ∧
    (∃ t, exec (.andReg x y) s = .next t ∧ t.reg x = s.reg x &&& s.reg y ∧ OnlyChanges s t (fun p => p = .reg x)) ∧
    (∃ t, exec (.xorReg x y) s = .next t ∧ t.reg x = s.reg x ^^^ s.reg y ∧ OnlyChanges s t (fun p => p = .reg x))

/-- 41 R146: ADD.r. That the flag survives when X = 15, and that Y = 15 names the old VF, is decision D4 (log entry 6). -/
def Obligations.AddWritesSumAndCarry : Prop :=
  ∀ (x y : Reg) (s : State), ∃ t, exec (.addReg x y) s = .next t ∧
    (x ≠ 15 → (t.reg x).toNat = ((s.reg x).toNat + (s.reg y).toNat) % 256) ∧
    (t.reg 15).toNat = (if (s.reg x).toNat + (s.reg y).toNat > 255 then 1 else 0) ∧
    OnlyChanges s t (fun p => p = .reg x ∨ p = .reg 15)

/-- 41 R147, R149: SUB and SUBN; the flag is a strict greater-than. That the flag survives when X = 15, and that Y = 15
names the old VF, is decision D4 (log entry 6). -/
def Obligations.SubtractsWriteDifferenceAndStrictFlag : Prop :=
  ∀ (x y : Reg) (s : State),
    (∃ t, exec (.sub x y) s = .next t ∧
      (x ≠ 15 → (t.reg x).toNat = ((s.reg x).toNat + 256 - (s.reg y).toNat) % 256) ∧
      (t.reg 15).toNat = (if (s.reg x).toNat > (s.reg y).toNat then 1 else 0) ∧
      OnlyChanges s t (fun p => p = .reg x ∨ p = .reg 15)) ∧
    (∃ t, exec (.subn x y) s = .next t ∧
      (x ≠ 15 → (t.reg x).toNat = ((s.reg y).toNat + 256 - (s.reg x).toNat) % 256) ∧
      (t.reg 15).toNat = (if (s.reg y).toNat > (s.reg x).toNat then 1 else 0) ∧
      OnlyChanges s t (fun p => p = .reg x ∨ p = .reg 15))

/-- 41 R148, R150: SHR and SHL shift VX itself by one (decision D5, log entry 7), VF takes the bit shifted out, and stays when
X = 15 (decision D4, log entry 6). -/
def Obligations.ShiftsMoveVxByOneAndKeepTheBit : Prop :=
  ∀ (x y : Reg) (s : State),
    (∃ t, exec (.shr x y) s = .next t ∧ (x ≠ 15 → (t.reg x).toNat = (s.reg x).toNat / 2) ∧
      (t.reg 15).toNat = (s.reg x).toNat % 2 ∧ OnlyChanges s t (fun p => p = .reg x ∨ p = .reg 15)) ∧
    (∃ t, exec (.shl x y) s = .next t ∧ (x ≠ 15 → (t.reg x).toNat = (2 * (s.reg x).toNat) % 256) ∧
      (t.reg 15).toNat = (s.reg x).toNat / 128 ∧ OnlyChanges s t (fun p => p = .reg x ∨ p = .reg 15))

/-! ### Address register and random -/

/-- 42 R160, R163: LD.I and LD.F. -/
def Obligations.AddressRegisterLoads : Prop :=
  (∀ (nnn : Addr) (s : State), ∃ t, exec (.ldI nnn) s = .next t ∧ t.I.toNat = nnn.toNat ∧ OnlyChanges s t (fun p => p = .I)) ∧
  (∀ (x : Reg) (s : State), ∃ t, exec (.ldF x) s = .next t ∧ t.I.toNat = 0x50 + 5 * ((s.reg x).toNat % 16) ∧
    OnlyChanges s t (fun p => p = .I))

/-- 42 R162: ADD.I wraps at 16 bits and sets no flag (decision D10, log entry 12). -/
def Obligations.AddressRegisterAddWrapsWithoutFlag : Prop :=
  ∀ (x : Reg) (s : State), ∃ t, exec (.addI x) s = .next t ∧ t.I.toNat = (s.I.toNat + (s.reg x).toNat) % 65536 ∧
    OnlyChanges s t (fun p => p = .I)

/-- 42 R161: RND writes the offered byte under the mask; the byte is free (decision D14, log entry 1), so only the mask bounds
the result. -/
def Obligations.RandomIsTheOfferedByteUnderTheMask : Prop :=
  ∀ (x : Reg) (kk : Byte) (s : State), ∃ t, exec (.rnd x kk) s = .next t ∧ t.reg x &&& ~~~kk = 0 ∧
    (∀ keys rand, s.nextEvent = .step keys rand → t.reg x = rand &&& kk) ∧ OnlyChanges s t (fun p => p = .reg x)

/-! ### Display -/

/-- 43 R170: CLS. -/
def Obligations.ClearScreenZeroesEveryPixel : Prop :=
  ∀ (g : Nibble) (s : State), ∃ t, exec (.cls g) s = .next t ∧ (∀ idx, t.pixel idx = false) ∧
    OnlyChanges s t (fun p => ∃ idx, p = .pixel idx)

/-- 43 R171: DRW with X and Y other than 15: every pixel under a 1 bit of the sprite is inverted, no other changes, and VF is
1 exactly when one of those pixels was lit. Bit order is decision D7 (log entry 9). -/
def Obligations.DrawXorsSpriteAndReportsCollision : Prop :=
  ∀ (x y : Reg) (n : Nibble) (s : State), x ≠ 15 → y ≠ 15 → ∃ t, exec (.drw x y n) s = .next t ∧
    (∀ idx, t.pixel idx = true ↔ ¬ (s.pixel idx = true ↔ SpriteCovers s (s.reg x) (s.reg y) n.toNat idx)) ∧
    (SpriteCollides s (s.reg x) (s.reg y) n.toNat → t.reg 15 = 1) ∧
    (¬ SpriteCollides s (s.reg x) (s.reg y) n.toNat → t.reg 15 = 0) ∧
    OnlyChanges s t (fun p => p = .reg 15 ∨ ∃ idx, p = .pixel idx ∧ SpriteCovers s (s.reg x) (s.reg y) n.toNat idx)

/-- 43 R171, for every X and Y, 15 among them: VF is cleared before the coordinates are read, and they are read at each pixel
(decision D8, log entry 10), so as long as no lit pixel is met a coordinate named by VF is 0. -/
def Obligations.DrawWithoutCollisionReadsClearedVf : Prop :=
  ∀ (x y : Reg) (n : Nibble) (s : State) (vx vy : Byte),
    vx = (if x = 15 then 0 else s.reg x) → vy = (if y = 15 then 0 else s.reg y) → ¬ SpriteCollides s vx vy n.toNat →
    ∃ t, exec (.drw x y n) s = .next t ∧ t.reg 15 = 0 ∧
      (∀ idx, t.pixel idx = true ↔ (s.pixel idx = true ∨ SpriteCovers s vx vy n.toNat idx)) ∧
      OnlyChanges s t (fun p => p = .reg 15 ∨ ∃ idx, p = .pixel idx ∧ SpriteCovers s vx vy n.toNat idx)

/-- 43 R171, every form: DRW completes, leaves 0 or 1 in VF, changes VF and pixels only, and with N = 0 clears VF and nothing
else. -/
def Obligations.DrawChangesFlagAndPixelsOnly : Prop :=
  ∀ (x y : Reg) (n : Nibble) (s : State), ∃ t, exec (.drw x y n) s = .next t ∧ (t.reg 15 = 0 ∨ t.reg 15 = 1) ∧
    OnlyChanges s t (fun p => p = .reg 15 ∨ ∃ idx, p = .pixel idx) ∧
    (n = 0 → t.reg 15 = 0 ∧ OnlyChanges s t (fun p => p = .reg 15))

/-- 43 R172: drawing the same sprite twice at the same place restores the screen, and the second draw's VF is 1 exactly when
the first lit a pixel. Bit order is decision D7 (log entry 9). -/
def Obligations.DrawTwiceRestoresTheScreen : Prop :=
  ∀ (x y : Reg) (n : Nibble) (s t : State), x ≠ 15 → y ≠ 15 → exec (.drw x y n) s = .next t →
    ∃ u, exec (.drw x y n) t = .next u ∧ (∀ idx, u.pixel idx = s.pixel idx) ∧
      ((∃ idx, SpriteCovers s (s.reg x) (s.reg y) n.toNat idx ∧ s.pixel idx = false) → u.reg 15 = 1) ∧
      ((∀ idx, SpriteCovers s (s.reg x) (s.reg y) n.toNat idx → s.pixel idx = true) → u.reg 15 = 0)

/-- 43 R171 (c), R173: the pixels of one sprite land on different cells of the screen. -/
def Obligations.SpritePixelsNeverCoincide : Prop :=
  ∀ (vx vy : Byte) (row bit row' bit' : Nat), row < 16 → bit < 8 → row' < 16 → bit' < 8 →
    spriteCell vx vy row bit = spriteCell vx vy row' bit' → row = row' ∧ bit = bit'

/-! ### Keypad and timers -/

/-- 44 R180, R181: SKP and SKNP skip by the key that the low nibble of VX names (decision D9, log entry 11) in the Step's one
sample (D22, log entry 22). -/
def Obligations.KeySkipsFollowTheSample : Prop :=
  ∀ (x : Reg) (s : State),
    (∃ t, exec (.skp x) s = .next t ∧ OnlyChanges s t (fun p => p = .pc) ∧
      ∀ keys rand, s.nextEvent = .step keys rand →
        t.pc = (if keys.getLsbD ((s.reg x).toNat % 16) then BitVec.ofNat 16 ((s.pc.toNat + 2) % 4096) else s.pc)) ∧
    (∃ t, exec (.sknp x) s = .next t ∧ OnlyChanges s t (fun p => p = .pc) ∧
      ∀ keys rand, s.nextEvent = .step keys rand →
        t.pc = (if keys.getLsbD ((s.reg x).toNat % 16) then s.pc else BitVec.ofNat 16 ((s.pc.toNat + 2) % 4096)))

/-- 44 R182, R185, R186: LD.VDT, LD.DTV and LD.STV. -/
def Obligations.TimerInstructionsMoveOneByte : Prop :=
  ∀ (x : Reg) (s : State),
    (∃ t, exec (.ldVdt x) s = .next t ∧ t.reg x = s.dt ∧ OnlyChanges s t (fun p => p = .reg x)) ∧
    (∃ t, exec (.ldDtv x) s = .next t ∧ t.dt = s.reg x ∧ OnlyChanges s t (fun p => p = .dt)) ∧
    (∃ t, exec (.ldStv x) s = .next t ∧ t.st = s.reg x ∧ OnlyChanges s t (fun p => p = .st))

/-- 44 R183: the words of LD.K, which begins the key-wait and does nothing else; until the wait is resolved a Step advances no
timer and executes no instruction: it can change KW and the target register only. Of a Step only: a Tick in a key-wait counts
the timers down (90_conflicts.md C2, decision D12, log entry 14), which `TickCountsTimersDownAndSetsTone` states. -/
def Obligations.EnterKeyWaitSetsTheTarget : Prop :=
  Encodes 0xF00A 0xF0FF (fun w => .ldK (fieldX w)) ∧
  (∀ (x : Reg) (s : State), ∃ t, exec (.ldK x) s = .next t ∧ t.kw = some x ∧ OnlyChanges s t (fun p => p = .kw)) ∧
  ∀ (s : State) (r : Reg) (keys : BitVec 16) (rand : Byte), s.nextEvent = .step keys rand → s.kw = some r →
    ∃ t, step s = .next t ∧ (t.kw = none ∨ t.kw = some r) ∧ (t.kw = some r → t.reg r = s.reg r) ∧ EventOver s t ∧
      OnlyChanges s t (fun p => p = .kw ∨ p = .reg r ∨ p = .surroundings)

/-- 70 R226: a timer written and read back with no Tick between gives the value written. -/
def Obligations.DelayTimerReadsBackWhatWasWritten : Prop :=
  ∀ (x y : Reg) (s t u : State), exec (.ldDtv x) s = .next t → exec (.ldVdt y) t = .next u → u.reg y = s.reg x

/-! ### Memory instructions -/

/-- 45 R190: LD.B writes the three decimal digits to I, I+1, I+2, each address masked on its own; I stays (decision D11, log
entry 13). -/
def Obligations.StoreDigitsWritesThreeBytes : Prop :=
  ∀ (x : Reg) (s : State), ∃ t, exec (.ldB x) s = .next t ∧
    (t.readByte (s.dataAddress 0)).toNat = (s.reg x).toNat / 100 ∧
    (t.readByte (s.dataAddress 1)).toNat = (s.reg x).toNat / 10 % 10 ∧
    (t.readByte (s.dataAddress 2)).toNat = (s.reg x).toNat % 10 ∧
    OnlyChanges s t (fun p => ∃ k < 3, p = cellPart (s.dataAddress k))

/-- 45 R191: ST.M stores V0 to VX at I upwards and touches no other byte; I stays (decision D11, log entry 13). -/
def Obligations.StoreRegistersWritesV0ToVx : Prop :=
  ∀ (x : Reg) (s : State), ∃ t, exec (.stM x) s = .next t ∧
    (∀ k ≤ x.toNat, t.readByte (s.dataAddress k) = s.reg (BitVec.ofNat 4 k)) ∧
    OnlyChanges s t (fun p => ∃ k ≤ x.toNat, p = cellPart (s.dataAddress k))

/-- 45 R192: LD.M loads V0 to VX from I upwards; I stays (decision D11, log entry 13). -/
def Obligations.LoadRegistersReadsV0ToVx : Prop :=
  ∀ (x : Reg) (s : State), ∃ t, exec (.ldM x) s = .next t ∧
    (∀ k ≤ x.toNat, t.reg (BitVec.ofNat 4 k) = s.readByte (s.dataAddress k)) ∧
    OnlyChanges s t (fun p => ∃ r : Reg, r.toNat ≤ x.toNat ∧ p = .reg r)

/-- 20 R74 (decision D31, log entry 27): what ST.M stores is what the next fetch from there reads. -/
def Obligations.StoredWordIsFetchedNext : Prop :=
  ∀ (x : Reg) (s t : State), 1 ≤ x.toNat → exec (.stM x) s = .next t →
    ({ t with pc := BitVec.ofNat 16 (s.I.toNat % 4096) } : State).fetchWord = s.reg 0 ++ s.reg 1

/-! ### Unrecognised patterns -/

/-- 46 R195: the four no-op rows change nothing; pc keeps the value the fetch gave it. -/
def Obligations.UnrecognisedWordsChangeNothing : Prop :=
  ∀ (bits : BitVec 12) (s : State), exec (.nop0 bits) s = .next s ∧ exec (.nop8 bits) s = .next s ∧
    exec (.nopE bits) s = .next s ∧ exec (.nopF bits) s = .next s

/-! ### Encoding -/

/-- 30 R91 to R95: decoding the bytes of a well-formed instruction gives it back, with every operand at every value, and
leaves the bytes after it. -/
def Obligations.DecodeInvertsEncode : Prop :=
  ∀ (i : Instr) (rest : List Byte), i.wellFormed = true → decode (encodeBytes i ++ rest) = .ok (i, rest)

/-- 30 R97, R98: every word decodes to a well-formed instruction whose word it is. -/
def Obligations.EncodeInvertsDecode : Prop :=
  ∀ w : Word, (decodeWord w).wellFormed = true ∧ encode (decodeWord w) = w

/-- 30 R97: every word has a meaning, and it is that of the first row of the opcode map whose fixed bits it has. The numbers of
the rows are partly the standard assignment (30 R96, log entry 17). -/
def Obligations.DecoderFollowsTheOpcodeMap : Prop :=
  ∀ w : Word, ∃ r, firstRow w = some r ∧ r.mnemonic = (decodeWord w).mnemonic

/-- 30 R96: the three words the source prints, and one word of each other family, decode as the opcode map says. -/
def Obligations.WrittenOutWordsDecode : Prop :=
  decodeWord 0x600A = .ldImm 0 0x0A ∧ decodeWord 0x7005 = .addImm 0 0x05 ∧ decodeWord 0x00E0 = .cls 0 ∧
    decodeWord 0x220C = .call 0x20C ∧ decodeWord 0x8F14 = .addReg 15 1 ∧ decodeWord 0xA300 = .ldI 0x300 ∧
    decodeWord 0xD125 = .drw 1 2 5 ∧ decodeWord 0xE09E = .skp 0 ∧ decodeWord 0xF255 = .stM 2 ∧
    decodeWord 0x8AB9 = .nop8 0xAB9

/-! ### Further statements -/

/-- 43 R171 (b): DRW with a first collision at position `first`, for every X and Y, 15 among them: VF ends as 1, the positions up
to and with `first` are drawn at the coordinates read while VF is 0, the later ones at those read while VF is 1, and each 1 bit
inverts its pixel. A coordinate register other than VF reads the same in both. Reading at each pixel is decision D8 (log entry
10), bit order is decision D7 (log entry 9). -/
def Obligations.DrawAfterCollisionReadsRaisedVf : Prop :=
  ∀ (x y : Reg) (n : Nibble) (s : State) (vx vy wx wy : Byte) (first : Nat),
    vx = (if x = 15 then 0 else s.reg x) → vy = (if y = 15 then 0 else s.reg y) →
    wx = (if x = 15 then 1 else s.reg x) → wy = (if y = 15 then 1 else s.reg y) →
    first < 8 * n.toNat → SpriteHasBit s first → s.pixel (spritePixelAt vx vy first) = true →
    (∀ k < first, SpriteHasBit s k → s.pixel (spritePixelAt vx vy k) = false) →
    ∃ t, exec (.drw x y n) s = .next t ∧ t.reg 15 = 1 ∧
      (∀ idx, t.pixel idx = true ↔ ¬ (s.pixel idx = true ↔
        ¬ (SpriteCoversBetween s vx vy 0 (first + 1) idx ↔
          SpriteCoversBetween s wx wy (first + 1) (8 * n.toNat) idx))) ∧
      OnlyChanges s t (fun p => p = .reg 15 ∨ ∃ idx, p = .pixel idx ∧
        (SpriteCoversBetween s vx vy 0 (first + 1) idx ∨ SpriteCoversBetween s wx wy (first + 1) (8 * n.toNat) idx))

/-- 00 R6, 10 R40: FONT is a constant of the machine: no event changes it (log entry 18). -/
def Obligations.FontNeverChanges : Prop := ∀ s t : State, step s = .next t → t.font = s.font
end

