-- ==== Sys2Proof/Laws/Encoding.lean ====
section
/-!
SUPPORT. The fields of the words the encoder builds (30_encoding.md R91, R92), through the numbers the words are.
-/

namespace Sys2Proof

/-! ### Fields and words as numbers -/

/-- A concatenation as a number: the left part is the more significant (00 R7). -/
theorem toNat_concat {m n : Nat} (a : BitVec m) (b : BitVec n) : (a ++ b).toNat = a.toNat * 2 ^ n + b.toNat := by
  rw [BitVec.toNat_append, ← Nat.shiftLeft_add_eq_or_of_lt b.isLt, Nat.shiftLeft_eq]

theorem fieldP_toNat (w : Word) : (fieldP w).toNat = w.toNat / 4096 := by
  have := w.isLt
  simp only [fieldP, BitVec.extractLsb'_toNat, Nat.shiftRight_eq_div_pow]; omega

theorem fieldX_toNat (w : Word) : (fieldX w).toNat = w.toNat / 256 % 16 := by
  simp only [fieldX, BitVec.extractLsb'_toNat, Nat.shiftRight_eq_div_pow]

theorem fieldY_toNat (w : Word) : (fieldY w).toNat = w.toNat / 16 % 16 := by
  simp only [fieldY, BitVec.extractLsb'_toNat, Nat.shiftRight_eq_div_pow]

theorem fieldN_toNat (w : Word) : (fieldN w).toNat = w.toNat % 16 := by
  simp only [fieldN, BitVec.extractLsb'_toNat, Nat.shiftRight_eq_div_pow]; omega

theorem fieldKK_toNat (w : Word) : (fieldKK w).toNat = w.toNat % 256 := by
  simp only [fieldKK, BitVec.extractLsb'_toNat, Nat.shiftRight_eq_div_pow]; omega

theorem fieldNNN_toNat (w : Word) : (fieldNNN w).toNat = w.toNat % 4096 := by
  simp only [fieldNNN, BitVec.extractLsb'_toNat, Nat.shiftRight_eq_div_pow]; omega

theorem wordA_toNat (p : Nibble) (nnn : Addr) : (wordA p nnn).toNat = p.toNat * 4096 + nnn.toNat :=
  toNat_concat p nnn

theorem wordI_toNat (p : Nibble) (x : Reg) (kk : Byte) :
    (wordI p x kk).toNat = p.toNat * 4096 + (x.toNat * 256 + kk.toNat) := by
  have h := toNat_concat p (x ++ kk)
  rwa [toNat_concat x kk] at h

theorem wordR_toNat (p : Nibble) (x y : Reg) (n : Nibble) :
    (wordR p x y n).toNat = p.toNat * 4096 + (x.toNat * 256 + (y.toNat * 16 + n.toNat)) := by
  have h := toNat_concat p (x ++ (y ++ n))
  rwa [toNat_concat x (y ++ n), toNat_concat y n] at h

/-! ### The fields of a word of each format (30 R92) -/

@[simp] theorem fieldP_wordA (p : Nibble) (nnn : Addr) : fieldP (wordA p nnn) = p := by
  apply BitVec.eq_of_toNat_eq
  rw [fieldP_toNat, wordA_toNat]; omega

@[simp] theorem fieldNNN_wordA (p : Nibble) (nnn : Addr) : fieldNNN (wordA p nnn) = nnn := by
  apply BitVec.eq_of_toNat_eq
  rw [fieldNNN_toNat, wordA_toNat]; omega

@[simp] theorem fieldKK_wordA (p : Nibble) (nnn : Addr) : fieldKK (wordA p nnn) = nnn.extractLsb' 0 8 := by
  apply BitVec.eq_of_toNat_eq
  rw [fieldKK_toNat, wordA_toNat, BitVec.extractLsb'_toNat, Nat.shiftRight_eq_div_pow]; omega

@[simp] theorem fieldN_wordA (p : Nibble) (nnn : Addr) : fieldN (wordA p nnn) = nnn.extractLsb' 0 4 := by
  apply BitVec.eq_of_toNat_eq
  rw [fieldN_toNat, wordA_toNat, BitVec.extractLsb'_toNat, Nat.shiftRight_eq_div_pow]; omega

@[simp] theorem fieldP_wordI (p : Nibble) (x : Reg) (kk : Byte) : fieldP (wordI p x kk) = p := by
  apply BitVec.eq_of_toNat_eq
  rw [fieldP_toNat, wordI_toNat]; omega

@[simp] theorem fieldX_wordI (p : Nibble) (x : Reg) (kk : Byte) : fieldX (wordI p x kk) = x := by
  apply BitVec.eq_of_toNat_eq
  rw [fieldX_toNat, wordI_toNat]; omega

@[simp] theorem fieldKK_wordI (p : Nibble) (x : Reg) (kk : Byte) : fieldKK (wordI p x kk) = kk := by
  apply BitVec.eq_of_toNat_eq
  rw [fieldKK_toNat, wordI_toNat]; omega

@[simp] theorem fieldP_wordR (p : Nibble) (x y : Reg) (n : Nibble) : fieldP (wordR p x y n) = p := by
  apply BitVec.eq_of_toNat_eq
  rw [fieldP_toNat, wordR_toNat]; omega

@[simp] theorem fieldX_wordR (p : Nibble) (x y : Reg) (n : Nibble) : fieldX (wordR p x y n) = x := by
  apply BitVec.eq_of_toNat_eq
  rw [fieldX_toNat, wordR_toNat]; omega

@[simp] theorem fieldY_wordR (p : Nibble) (x y : Reg) (n : Nibble) : fieldY (wordR p x y n) = y := by
  apply BitVec.eq_of_toNat_eq
  rw [fieldY_toNat, wordR_toNat]; omega

@[simp] theorem fieldN_wordR (p : Nibble) (x y : Reg) (n : Nibble) : fieldN (wordR p x y n) = n := by
  apply BitVec.eq_of_toNat_eq
  rw [fieldN_toNat, wordR_toNat]; omega

/-! ### A word from its fields and from its bytes -/

/-- A word is its group and its low twelve bits. -/
theorem wordA_fields (w : Word) : wordA (fieldP w) (fieldNNN w) = w := by
  apply BitVec.eq_of_toNat_eq
  rw [wordA_toNat, fieldP_toNat, fieldNNN_toNat]; omega

/-- A word is its group, its X field and its low byte. -/
theorem wordI_fields (w : Word) : wordI (fieldP w) (fieldX w) (fieldKK w) = w := by
  apply BitVec.eq_of_toNat_eq
  rw [wordI_toNat, fieldP_toNat, fieldX_toNat, fieldKK_toNat]; omega

/-- A word is its four nibbles. -/
theorem wordR_fields (w : Word) : wordR (fieldP w) (fieldX w) (fieldY w) (fieldN w) = w := by
  apply BitVec.eq_of_toNat_eq
  rw [wordR_toNat, fieldP_toNat, fieldX_toNat, fieldY_toNat, fieldN_toNat]; omega

/-- A word's two bytes joined again are the word (20 R64). -/
theorem word_of_bytes (w : Word) : (w.extractLsb' 8 8 ++ w.extractLsb' 0 8 : BitVec 16) = w := by
  apply BitVec.eq_of_toNat_eq
  have := w.isLt
  rw [toNat_concat, BitVec.extractLsb'_toNat, BitVec.extractLsb'_toNat, Nat.shiftRight_eq_div_pow,
    Nat.shiftRight_eq_div_pow]
  omega

/-! ### Fixed bits: what the masks of the opcode map keep of a word (30 R94, R95) -/

theorem and_full4 (x : BitVec 4) : x &&& 0xF = x := BitVec.and_allOnes

theorem and_full8 (x : BitVec 8) : x &&& 0xFF = x := BitVec.and_allOnes

theorem and_groupMask_A (p : Nibble) (nnn : Addr) : wordA p nnn &&& 0xF000 = wordA p 0 := by
  have h : (p ++ nnn) &&& (0xF#4 ++ 0x000#12) = (p &&& 0xF) ++ (nnn &&& 0x000) := BitVec.and_append
  rwa [and_full4, show nnn &&& 0x000 = 0x000 from BitVec.and_zero] at h

theorem and_groupMask_I (p : Nibble) (x : Reg) (kk : Byte) : wordI p x kk &&& 0xF000 = wordA p 0 :=
  and_groupMask_A p (x ++ kk)

theorem and_groupMask_R (p : Nibble) (x y : Reg) (n : Nibble) : wordR p x y n &&& 0xF000 = wordA p 0 :=
  and_groupMask_A p (x ++ (y ++ n))

theorem and_byteMask (p : Nibble) (x : Reg) (kk : Byte) : wordI p x kk &&& 0xF0FF = wordI p 0 kk := by
  have h : (x ++ kk) &&& (0x0#4 ++ 0xFF#8) = (x &&& 0x0) ++ (kk &&& 0xFF) := BitVec.and_append
  have g : (p ++ (x ++ kk)) &&& (0xF#4 ++ (0x0#4 ++ 0xFF#8)) = (p &&& 0xF) ++ ((x ++ kk) &&& (0x0#4 ++ 0xFF#8)) :=
    BitVec.and_append
  rwa [h, and_full4, and_full8, show x &&& 0x0 = 0x0 from BitVec.and_zero] at g

theorem and_nibbleMask (p : Nibble) (x y : Reg) (n : Nibble) : wordR p x y n &&& 0xF00F = wordR p 0 0 n := by
  have h : (y ++ n) &&& (0x0#4 ++ 0xF#4) = (y &&& 0x0) ++ (n &&& 0xF) := BitVec.and_append
  have g : (x ++ (y ++ n)) &&& (0x0#4 ++ (0x0#4 ++ 0xF#4)) = (x &&& 0x0) ++ ((y ++ n) &&& (0x0#4 ++ 0xF#4)) :=
    BitVec.and_append
  have f : (p ++ (x ++ (y ++ n))) &&& (0xF#4 ++ (0x0#4 ++ (0x0#4 ++ 0xF#4))) =
      (p &&& 0xF) ++ ((x ++ (y ++ n)) &&& (0x0#4 ++ (0x0#4 ++ 0xF#4))) := BitVec.and_append
  rwa [g, h, and_full4, and_full4, show x &&& 0x0 = 0x0 from BitVec.and_zero,
    show y &&& 0x0 = 0x0 from BitVec.and_zero] at f

end Sys2Proof
end

