-- ==== Sys2Proof/Laws/State.lean ====
section
/-!
SUPPORT. One lemma per field per update of the state, so that no later proof unfolds a record update; and what each view of
the state (a register, a byte, a pixel, the inputs) sees of each update.
-/

namespace Sys2Proof.Machine

/-! ### `setReg` -/

@[simp] theorem setReg_regs (s : State) (r : Reg) (v : Byte) : (s.setReg r v).regs = s.regs.set r.toNat v r.isLt := rfl
@[simp] theorem setReg_pc (s : State) (r : Reg) (v : Byte) : (s.setReg r v).pc = s.pc := rfl
@[simp] theorem setReg_I (s : State) (r : Reg) (v : Byte) : (s.setReg r v).I = s.I := rfl
@[simp] theorem setReg_sp (s : State) (r : Reg) (v : Byte) : (s.setReg r v).sp = s.sp := rfl
@[simp] theorem setReg_stack (s : State) (r : Reg) (v : Byte) : (s.setReg r v).stack = s.stack := rfl
@[simp] theorem setReg_dt (s : State) (r : Reg) (v : Byte) : (s.setReg r v).dt = s.dt := rfl
@[simp] theorem setReg_st (s : State) (r : Reg) (v : Byte) : (s.setReg r v).st = s.st := rfl
@[simp] theorem setReg_kw (s : State) (r : Reg) (v : Byte) : (s.setReg r v).kw = s.kw := rfl
@[simp] theorem setReg_tone (s : State) (r : Reg) (v : Byte) : (s.setReg r v).tone = s.tone := rfl
@[simp] theorem setReg_mem (s : State) (r : Reg) (v : Byte) : (s.setReg r v).mem = s.mem := rfl
@[simp] theorem setReg_fb (s : State) (r : Reg) (v : Byte) : (s.setReg r v).fb = s.fb := rfl
@[simp] theorem setReg_font (s : State) (r : Reg) (v : Byte) : (s.setReg r v).font = s.font := rfl
@[simp] theorem setReg_script (s : State) (r : Reg) (v : Byte) : (s.setReg r v).script = s.script := rfl
@[simp] theorem setReg_draws (s : State) (r : Reg) (v : Byte) : (s.setReg r v).draws = s.draws := rfl
@[simp] theorem setReg_readByte (s : State) (r : Reg) (v : Byte) (b : Nat) : (s.setReg r v).readByte b = s.readByte b := rfl
@[simp] theorem setReg_pixel (s : State) (r : Reg) (v : Byte) (idx : Nat) : (s.setReg r v).pixel idx = s.pixel idx := rfl
@[simp] theorem setReg_nextEvent (s : State) (r : Reg) (v : Byte) : (s.setReg r v).nextEvent = s.nextEvent := rfl
@[simp] theorem setReg_keyHeld (s : State) (r : Reg) (v : Byte) (k : Nibble) : (s.setReg r v).keyHeld k = s.keyHeld k := rfl
@[simp] theorem setReg_randByte (s : State) (r : Reg) (v : Byte) : (s.setReg r v).randByte = s.randByte := rfl

/-! ### `setI` -/

@[simp] theorem setI_regs (s : State) (v : Word) : (s.setI v).regs = s.regs := rfl
@[simp] theorem setI_pc (s : State) (v : Word) : (s.setI v).pc = s.pc := rfl
@[simp] theorem setI_I (s : State) (v : Word) : (s.setI v).I = v := rfl
@[simp] theorem setI_sp (s : State) (v : Word) : (s.setI v).sp = s.sp := rfl
@[simp] theorem setI_stack (s : State) (v : Word) : (s.setI v).stack = s.stack := rfl
@[simp] theorem setI_dt (s : State) (v : Word) : (s.setI v).dt = s.dt := rfl
@[simp] theorem setI_st (s : State) (v : Word) : (s.setI v).st = s.st := rfl
@[simp] theorem setI_kw (s : State) (v : Word) : (s.setI v).kw = s.kw := rfl
@[simp] theorem setI_tone (s : State) (v : Word) : (s.setI v).tone = s.tone := rfl
@[simp] theorem setI_mem (s : State) (v : Word) : (s.setI v).mem = s.mem := rfl
@[simp] theorem setI_fb (s : State) (v : Word) : (s.setI v).fb = s.fb := rfl
@[simp] theorem setI_font (s : State) (v : Word) : (s.setI v).font = s.font := rfl
@[simp] theorem setI_script (s : State) (v : Word) : (s.setI v).script = s.script := rfl
@[simp] theorem setI_draws (s : State) (v : Word) : (s.setI v).draws = s.draws := rfl
@[simp] theorem setI_reg (s : State) (v : Word) (q : Reg) : (s.setI v).reg q = s.reg q := rfl
@[simp] theorem setI_readByte (s : State) (v : Word) (b : Nat) : (s.setI v).readByte b = s.readByte b := rfl
@[simp] theorem setI_pixel (s : State) (v : Word) (idx : Nat) : (s.setI v).pixel idx = s.pixel idx := rfl
@[simp] theorem setI_nextEvent (s : State) (v : Word) : (s.setI v).nextEvent = s.nextEvent := rfl
@[simp] theorem setI_keyHeld (s : State) (v : Word) (k : Nibble) : (s.setI v).keyHeld k = s.keyHeld k := rfl
@[simp] theorem setI_randByte (s : State) (v : Word) : (s.setI v).randByte = s.randByte := rfl

/-! ### `setDt` -/

@[simp] theorem setDt_regs (s : State) (v : Byte) : (s.setDt v).regs = s.regs := rfl
@[simp] theorem setDt_pc (s : State) (v : Byte) : (s.setDt v).pc = s.pc := rfl
@[simp] theorem setDt_I (s : State) (v : Byte) : (s.setDt v).I = s.I := rfl
@[simp] theorem setDt_sp (s : State) (v : Byte) : (s.setDt v).sp = s.sp := rfl
@[simp] theorem setDt_stack (s : State) (v : Byte) : (s.setDt v).stack = s.stack := rfl
@[simp] theorem setDt_dt (s : State) (v : Byte) : (s.setDt v).dt = v := rfl
@[simp] theorem setDt_st (s : State) (v : Byte) : (s.setDt v).st = s.st := rfl
@[simp] theorem setDt_kw (s : State) (v : Byte) : (s.setDt v).kw = s.kw := rfl
@[simp] theorem setDt_tone (s : State) (v : Byte) : (s.setDt v).tone = s.tone := rfl
@[simp] theorem setDt_mem (s : State) (v : Byte) : (s.setDt v).mem = s.mem := rfl
@[simp] theorem setDt_fb (s : State) (v : Byte) : (s.setDt v).fb = s.fb := rfl
@[simp] theorem setDt_font (s : State) (v : Byte) : (s.setDt v).font = s.font := rfl
@[simp] theorem setDt_script (s : State) (v : Byte) : (s.setDt v).script = s.script := rfl
@[simp] theorem setDt_draws (s : State) (v : Byte) : (s.setDt v).draws = s.draws := rfl
@[simp] theorem setDt_reg (s : State) (v : Byte) (q : Reg) : (s.setDt v).reg q = s.reg q := rfl
@[simp] theorem setDt_readByte (s : State) (v : Byte) (b : Nat) : (s.setDt v).readByte b = s.readByte b := rfl
@[simp] theorem setDt_pixel (s : State) (v : Byte) (idx : Nat) : (s.setDt v).pixel idx = s.pixel idx := rfl
@[simp] theorem setDt_nextEvent (s : State) (v : Byte) : (s.setDt v).nextEvent = s.nextEvent := rfl
@[simp] theorem setDt_keyHeld (s : State) (v : Byte) (k : Nibble) : (s.setDt v).keyHeld k = s.keyHeld k := rfl
@[simp] theorem setDt_randByte (s : State) (v : Byte) : (s.setDt v).randByte = s.randByte := rfl

/-! ### `setSt` -/

@[simp] theorem setSt_regs (s : State) (v : Byte) : (s.setSt v).regs = s.regs := rfl
@[simp] theorem setSt_pc (s : State) (v : Byte) : (s.setSt v).pc = s.pc := rfl
@[simp] theorem setSt_I (s : State) (v : Byte) : (s.setSt v).I = s.I := rfl
@[simp] theorem setSt_sp (s : State) (v : Byte) : (s.setSt v).sp = s.sp := rfl
@[simp] theorem setSt_stack (s : State) (v : Byte) : (s.setSt v).stack = s.stack := rfl
@[simp] theorem setSt_dt (s : State) (v : Byte) : (s.setSt v).dt = s.dt := rfl
@[simp] theorem setSt_st (s : State) (v : Byte) : (s.setSt v).st = v := rfl
@[simp] theorem setSt_kw (s : State) (v : Byte) : (s.setSt v).kw = s.kw := rfl
@[simp] theorem setSt_tone (s : State) (v : Byte) : (s.setSt v).tone = s.tone := rfl
@[simp] theorem setSt_mem (s : State) (v : Byte) : (s.setSt v).mem = s.mem := rfl
@[simp] theorem setSt_fb (s : State) (v : Byte) : (s.setSt v).fb = s.fb := rfl
@[simp] theorem setSt_font (s : State) (v : Byte) : (s.setSt v).font = s.font := rfl
@[simp] theorem setSt_script (s : State) (v : Byte) : (s.setSt v).script = s.script := rfl
@[simp] theorem setSt_draws (s : State) (v : Byte) : (s.setSt v).draws = s.draws := rfl
@[simp] theorem setSt_reg (s : State) (v : Byte) (q : Reg) : (s.setSt v).reg q = s.reg q := rfl
@[simp] theorem setSt_readByte (s : State) (v : Byte) (b : Nat) : (s.setSt v).readByte b = s.readByte b := rfl
@[simp] theorem setSt_pixel (s : State) (v : Byte) (idx : Nat) : (s.setSt v).pixel idx = s.pixel idx := rfl
@[simp] theorem setSt_nextEvent (s : State) (v : Byte) : (s.setSt v).nextEvent = s.nextEvent := rfl
@[simp] theorem setSt_keyHeld (s : State) (v : Byte) (k : Nibble) : (s.setSt v).keyHeld k = s.keyHeld k := rfl
@[simp] theorem setSt_randByte (s : State) (v : Byte) : (s.setSt v).randByte = s.randByte := rfl

/-! ### `setTone` -/

@[simp] theorem setTone_regs (s : State) (v : Bool) : (s.setTone v).regs = s.regs := rfl
@[simp] theorem setTone_pc (s : State) (v : Bool) : (s.setTone v).pc = s.pc := rfl
@[simp] theorem setTone_I (s : State) (v : Bool) : (s.setTone v).I = s.I := rfl
@[simp] theorem setTone_sp (s : State) (v : Bool) : (s.setTone v).sp = s.sp := rfl
@[simp] theorem setTone_stack (s : State) (v : Bool) : (s.setTone v).stack = s.stack := rfl
@[simp] theorem setTone_dt (s : State) (v : Bool) : (s.setTone v).dt = s.dt := rfl
@[simp] theorem setTone_st (s : State) (v : Bool) : (s.setTone v).st = s.st := rfl
@[simp] theorem setTone_kw (s : State) (v : Bool) : (s.setTone v).kw = s.kw := rfl
@[simp] theorem setTone_tone (s : State) (v : Bool) : (s.setTone v).tone = v := rfl
@[simp] theorem setTone_mem (s : State) (v : Bool) : (s.setTone v).mem = s.mem := rfl
@[simp] theorem setTone_fb (s : State) (v : Bool) : (s.setTone v).fb = s.fb := rfl
@[simp] theorem setTone_font (s : State) (v : Bool) : (s.setTone v).font = s.font := rfl
@[simp] theorem setTone_script (s : State) (v : Bool) : (s.setTone v).script = s.script := rfl
@[simp] theorem setTone_draws (s : State) (v : Bool) : (s.setTone v).draws = s.draws := rfl
@[simp] theorem setTone_reg (s : State) (v : Bool) (q : Reg) : (s.setTone v).reg q = s.reg q := rfl
@[simp] theorem setTone_readByte (s : State) (v : Bool) (b : Nat) : (s.setTone v).readByte b = s.readByte b := rfl
@[simp] theorem setTone_pixel (s : State) (v : Bool) (idx : Nat) : (s.setTone v).pixel idx = s.pixel idx := rfl
@[simp] theorem setTone_nextEvent (s : State) (v : Bool) : (s.setTone v).nextEvent = s.nextEvent := rfl
@[simp] theorem setTone_keyHeld (s : State) (v : Bool) (k : Nibble) : (s.setTone v).keyHeld k = s.keyHeld k := rfl
@[simp] theorem setTone_randByte (s : State) (v : Bool) : (s.setTone v).randByte = s.randByte := rfl

/-! ### `setKw` -/

@[simp] theorem setKw_regs (s : State) (v : Option Reg) : (s.setKw v).regs = s.regs := rfl
@[simp] theorem setKw_pc (s : State) (v : Option Reg) : (s.setKw v).pc = s.pc := rfl
@[simp] theorem setKw_I (s : State) (v : Option Reg) : (s.setKw v).I = s.I := rfl
@[simp] theorem setKw_sp (s : State) (v : Option Reg) : (s.setKw v).sp = s.sp := rfl
@[simp] theorem setKw_stack (s : State) (v : Option Reg) : (s.setKw v).stack = s.stack := rfl
@[simp] theorem setKw_dt (s : State) (v : Option Reg) : (s.setKw v).dt = s.dt := rfl
@[simp] theorem setKw_st (s : State) (v : Option Reg) : (s.setKw v).st = s.st := rfl
@[simp] theorem setKw_kw (s : State) (v : Option Reg) : (s.setKw v).kw = v := rfl
@[simp] theorem setKw_tone (s : State) (v : Option Reg) : (s.setKw v).tone = s.tone := rfl
@[simp] theorem setKw_mem (s : State) (v : Option Reg) : (s.setKw v).mem = s.mem := rfl
@[simp] theorem setKw_fb (s : State) (v : Option Reg) : (s.setKw v).fb = s.fb := rfl
@[simp] theorem setKw_font (s : State) (v : Option Reg) : (s.setKw v).font = s.font := rfl
@[simp] theorem setKw_script (s : State) (v : Option Reg) : (s.setKw v).script = s.script := rfl
@[simp] theorem setKw_draws (s : State) (v : Option Reg) : (s.setKw v).draws = s.draws := rfl
@[simp] theorem setKw_reg (s : State) (v : Option Reg) (q : Reg) : (s.setKw v).reg q = s.reg q := rfl
@[simp] theorem setKw_readByte (s : State) (v : Option Reg) (b : Nat) : (s.setKw v).readByte b = s.readByte b := rfl
@[simp] theorem setKw_pixel (s : State) (v : Option Reg) (idx : Nat) : (s.setKw v).pixel idx = s.pixel idx := rfl
@[simp] theorem setKw_nextEvent (s : State) (v : Option Reg) : (s.setKw v).nextEvent = s.nextEvent := rfl
@[simp] theorem setKw_keyHeld (s : State) (v : Option Reg) (k : Nibble) : (s.setKw v).keyHeld k = s.keyHeld k := rfl
@[simp] theorem setKw_randByte (s : State) (v : Option Reg) : (s.setKw v).randByte = s.randByte := rfl

/-! ### `setPc` -/

@[simp] theorem setPc_regs (s : State) (v : Word) : (s.setPc v).regs = s.regs := rfl
@[simp] theorem setPc_pc (s : State) (v : Word) : (s.setPc v).pc = v := rfl
@[simp] theorem setPc_I (s : State) (v : Word) : (s.setPc v).I = s.I := rfl
@[simp] theorem setPc_sp (s : State) (v : Word) : (s.setPc v).sp = s.sp := rfl
@[simp] theorem setPc_stack (s : State) (v : Word) : (s.setPc v).stack = s.stack := rfl
@[simp] theorem setPc_dt (s : State) (v : Word) : (s.setPc v).dt = s.dt := rfl
@[simp] theorem setPc_st (s : State) (v : Word) : (s.setPc v).st = s.st := rfl
@[simp] theorem setPc_kw (s : State) (v : Word) : (s.setPc v).kw = s.kw := rfl
@[simp] theorem setPc_tone (s : State) (v : Word) : (s.setPc v).tone = s.tone := rfl
@[simp] theorem setPc_mem (s : State) (v : Word) : (s.setPc v).mem = s.mem := rfl
@[simp] theorem setPc_fb (s : State) (v : Word) : (s.setPc v).fb = s.fb := rfl
@[simp] theorem setPc_font (s : State) (v : Word) : (s.setPc v).font = s.font := rfl
@[simp] theorem setPc_script (s : State) (v : Word) : (s.setPc v).script = s.script := rfl
@[simp] theorem setPc_draws (s : State) (v : Word) : (s.setPc v).draws = s.draws := rfl
@[simp] theorem setPc_reg (s : State) (v : Word) (q : Reg) : (s.setPc v).reg q = s.reg q := rfl
@[simp] theorem setPc_readByte (s : State) (v : Word) (b : Nat) : (s.setPc v).readByte b = s.readByte b := rfl
@[simp] theorem setPc_pixel (s : State) (v : Word) (idx : Nat) : (s.setPc v).pixel idx = s.pixel idx := rfl
@[simp] theorem setPc_nextEvent (s : State) (v : Word) : (s.setPc v).nextEvent = s.nextEvent := rfl
@[simp] theorem setPc_keyHeld (s : State) (v : Word) (k : Nibble) : (s.setPc v).keyHeld k = s.keyHeld k := rfl
@[simp] theorem setPc_randByte (s : State) (v : Word) : (s.setPc v).randByte = s.randByte := rfl

/-! ### `writeByte` -/

@[simp] theorem writeByte_regs (s : State) (a : Nat) (v : Byte) : (s.writeByte a v).regs = s.regs := rfl
@[simp] theorem writeByte_pc (s : State) (a : Nat) (v : Byte) : (s.writeByte a v).pc = s.pc := rfl
@[simp] theorem writeByte_I (s : State) (a : Nat) (v : Byte) : (s.writeByte a v).I = s.I := rfl
@[simp] theorem writeByte_sp (s : State) (a : Nat) (v : Byte) : (s.writeByte a v).sp = s.sp := rfl
@[simp] theorem writeByte_stack (s : State) (a : Nat) (v : Byte) : (s.writeByte a v).stack = s.stack := rfl
@[simp] theorem writeByte_dt (s : State) (a : Nat) (v : Byte) : (s.writeByte a v).dt = s.dt := rfl
@[simp] theorem writeByte_st (s : State) (a : Nat) (v : Byte) : (s.writeByte a v).st = s.st := rfl
@[simp] theorem writeByte_kw (s : State) (a : Nat) (v : Byte) : (s.writeByte a v).kw = s.kw := rfl
@[simp] theorem writeByte_tone (s : State) (a : Nat) (v : Byte) : (s.writeByte a v).tone = s.tone := rfl
@[simp] theorem writeByte_mem (s : State) (a : Nat) (v : Byte) : (s.writeByte a v).mem = s.mem.write s.font (cellOf a) v := rfl
@[simp] theorem writeByte_fb (s : State) (a : Nat) (v : Byte) : (s.writeByte a v).fb = s.fb := rfl
@[simp] theorem writeByte_font (s : State) (a : Nat) (v : Byte) : (s.writeByte a v).font = s.font := rfl
@[simp] theorem writeByte_script (s : State) (a : Nat) (v : Byte) : (s.writeByte a v).script = s.script := rfl
@[simp] theorem writeByte_draws (s : State) (a : Nat) (v : Byte) : (s.writeByte a v).draws = s.draws := rfl
@[simp] theorem writeByte_reg (s : State) (a : Nat) (v : Byte) (q : Reg) : (s.writeByte a v).reg q = s.reg q := rfl
@[simp] theorem writeByte_pixel (s : State) (a : Nat) (v : Byte) (idx : Nat) : (s.writeByte a v).pixel idx = s.pixel idx := rfl
@[simp] theorem writeByte_nextEvent (s : State) (a : Nat) (v : Byte) : (s.writeByte a v).nextEvent = s.nextEvent := rfl
@[simp] theorem writeByte_keyHeld (s : State) (a : Nat) (v : Byte) (k : Nibble) : (s.writeByte a v).keyHeld k = s.keyHeld k := rfl
@[simp] theorem writeByte_randByte (s : State) (a : Nat) (v : Byte) : (s.writeByte a v).randByte = s.randByte := rfl

/-! ### `clearScreen` -/

@[simp] theorem clearScreen_regs (s : State) : s.clearScreen.regs = s.regs := rfl
@[simp] theorem clearScreen_pc (s : State) : s.clearScreen.pc = s.pc := rfl
@[simp] theorem clearScreen_I (s : State) : s.clearScreen.I = s.I := rfl
@[simp] theorem clearScreen_sp (s : State) : s.clearScreen.sp = s.sp := rfl
@[simp] theorem clearScreen_stack (s : State) : s.clearScreen.stack = s.stack := rfl
@[simp] theorem clearScreen_dt (s : State) : s.clearScreen.dt = s.dt := rfl
@[simp] theorem clearScreen_st (s : State) : s.clearScreen.st = s.st := rfl
@[simp] theorem clearScreen_kw (s : State) : s.clearScreen.kw = s.kw := rfl
@[simp] theorem clearScreen_tone (s : State) : s.clearScreen.tone = s.tone := rfl
@[simp] theorem clearScreen_mem (s : State) : s.clearScreen.mem = s.mem := rfl
@[simp] theorem clearScreen_fb (s : State) : s.clearScreen.fb = Vector.replicate 32 0 := rfl
@[simp] theorem clearScreen_font (s : State) : s.clearScreen.font = s.font := rfl
@[simp] theorem clearScreen_script (s : State) : s.clearScreen.script = s.script := rfl
@[simp] theorem clearScreen_draws (s : State) : s.clearScreen.draws = s.draws := rfl
@[simp] theorem clearScreen_reg (s : State) (q : Reg) : s.clearScreen.reg q = s.reg q := rfl
@[simp] theorem clearScreen_readByte (s : State) (b : Nat) : s.clearScreen.readByte b = s.readByte b := rfl
@[simp] theorem clearScreen_nextEvent (s : State) : s.clearScreen.nextEvent = s.nextEvent := rfl
@[simp] theorem clearScreen_keyHeld (s : State) (k : Nibble) : s.clearScreen.keyHeld k = s.keyHeld k := rfl
@[simp] theorem clearScreen_randByte (s : State) : s.clearScreen.randByte = s.randByte := rfl

end Sys2Proof.Machine
end

