-- ==== Sys2Proof/Laws/Memory.lean ====
section
/-!
SUPPORT. Memory: a read after a write, and the canonical form that every memory operation keeps.
-/

namespace Sys2Proof.Machine

/-! ### A read after a write, in any list of cells -/

/-- What memory reads after a cell was put in front of it. -/
theorem read_cons (f : Font) (a : Nat) (v : Byte) (rest : Memory) (b : Nat) :
    (Memory.cons f a v rest).read f b = if b = a then v else rest.read f b := by
  unfold Memory.cons
  split
  · split
    · subst_vars; rfl
    · rfl
  · simp [Memory.read]

/-- A write changes what its own cell reads as, and no other. -/
@[simp] theorem read_write (f : Font) (m : Memory) (a : Nat) (v : Byte) (b : Nat) :
    (m.write f a v).read f b = if b = a then v else m.read f b := by
  induction m with
  | nil => exact read_cons f a v [] b
  | cons c rest ih =>
    obtain ⟨d, u⟩ := c
    unfold Memory.write
    split
    · exact read_cons f a v _ b
    · split
      · subst_vars
        rw [read_cons]
        simp only [Memory.read]
        split <;> rfl
      · simp only [Memory.read, ih]
        split
        · have : b ≠ a := by omega
          simp [this]
        · rfl

/-- `writeByte` changes what the byte at its masked address reads as, and no other (20 R62). -/
theorem readByte_writeByte (s : State) (a : Nat) (v : Byte) (b : Nat) :
    (s.writeByte a v).readByte b = if cellOf b = cellOf a then v else s.readByte b := by
  simp [State.readByte]

/-! ### The canonical form -/

/-- A cell below every listed cell reads as its reset content. -/
theorem read_of_wfFrom {f : Font} {m : Memory} : ∀ {lo a : Nat}, m.wfFrom f lo = true → a < lo →
    m.read f a = Memory.resetByte f a := by
  induction m with
  | nil => intros; rfl
  | cons c rest ih =>
    obtain ⟨b, v⟩ := c
    intro lo a h ha
    simp only [Memory.wfFrom, Bool.and_eq_true, decide_eq_true_eq] at h
    have hb : a ≠ b := by omega
    simpa [Memory.read, hb] using ih h.2 (by omega)

/-- A lower bound may be weakened. -/
theorem wfFrom_mono {f : Font} {m : Memory} {lo lo' : Nat} (h : m.wfFrom f lo = true) (hle : lo' ≤ lo) :
    m.wfFrom f lo' = true := by
  cases m with
  | nil => rfl
  | cons c rest =>
    simp only [Memory.wfFrom, Bool.and_eq_true, decide_eq_true_eq] at h ⊢
    exact ⟨⟨⟨by omega, h.1.1.2⟩, h.1.2⟩, h.2⟩

/-- Putting a cell in front of memory keeps the canonical form. -/
theorem wfFrom_cons {f : Font} {rest : Memory} {lo a : Nat} (v : Byte) (hlo : lo ≤ a) (ha : a < memBytes)
    (h : rest.wfFrom f (a + 1) = true) : (Memory.cons f a v rest).wfFrom f lo = true := by
  unfold Memory.cons
  rw [read_of_wfFrom h (Nat.lt_succ_self a)]
  split
  · exact wfFrom_mono h (by omega)
  · rename_i hv
    simp only [Memory.wfFrom, Bool.and_eq_true, decide_eq_true_eq, bne_iff_ne]
    exact ⟨⟨⟨hlo, ha⟩, fun e => hv e.symm⟩, h⟩

/-- A write keeps the canonical form. -/
theorem wfFrom_write {f : Font} {m : Memory} : ∀ {lo : Nat}, m.wfFrom f lo = true → ∀ {a : Nat} (v : Byte), lo ≤ a →
    a < memBytes → (m.write f a v).wfFrom f lo = true := by
  induction m with
  | nil => intro lo _ a v hlo ha; exact wfFrom_cons v hlo ha rfl
  | cons c rest ih =>
    obtain ⟨d, u⟩ := c
    intro lo h a v hlo ha
    have h' := h
    simp only [Memory.wfFrom, Bool.and_eq_true, decide_eq_true_eq] at h'
    unfold Memory.write
    split
    · refine wfFrom_cons v hlo ha ?_
      simp only [Memory.wfFrom, Bool.and_eq_true, decide_eq_true_eq]
      exact ⟨⟨⟨by omega, h'.1.1.2⟩, h'.1.2⟩, h'.2⟩
    · split
      · subst_vars
        exact wfFrom_cons v hlo ha h'.2
      · simp only [Memory.wfFrom, Bool.and_eq_true, decide_eq_true_eq]
        exact ⟨h'.1, ih h'.2 v (by omega) ha⟩

/-- A masked address names one of the 4096 cells (20 R61, R63). -/
theorem cellOf_lt (a : Nat) : cellOf a < memBytes := Nat.mod_lt _ (by decide)

/-- A write through a masked address keeps the canonical form. -/
theorem wf_write {f : Font} {m : Memory} (h : m.wf f = true) (a : Nat) (v : Byte) : (m.write f (cellOf a) v).wf f = true :=
  wfFrom_write h v (Nat.zero_le _) (cellOf_lt a)

/-- Reset memory is in canonical form, whatever the font. -/
theorem wf_resetWith (f : Font) : (State.resetWith f).mem.wf f = true := rfl

/-- Reset memory is in canonical form. -/
theorem wf_reset : State.reset.mem.wf State.reset.font = true := rfl

/-- `writeByte` keeps the canonical form. -/
theorem writeByte_wf {s : State} (h : s.mem.wf s.font = true) (a : Nat) (v : Byte) :
    (s.writeByte a v).mem.wf s.font = true :=
  wf_write h a v

/-- `writeBytes` keeps the canonical form. -/
theorem writeBytes_wf {bs : List Byte} : ∀ {s : State} (a : Nat), s.mem.wf s.font = true →
    (s.writeBytes a bs).mem.wf s.font = true := by
  induction bs with
  | nil => intro s a h; exact h
  | cons b bs ih => intro s a h; exact ih (s := s.writeByte a b) (a + 1) (writeByte_wf h a b)

end Sys2Proof.Machine
end

