-- ==== Sys2Proof/Laws/Ops.lean ====
section
/-!
SUPPORT. For each shared operation, once, everything it can do.
-/

namespace Sys2Proof.Machine

/-! ### General registers -/

/-- A register write changes its own register and no other (10 R20). -/
theorem reg_setReg (s : State) (r : Reg) (v : Byte) (q : Reg) :
    (s.setReg r v).reg q = if q = r then v else s.reg q := by
  unfold State.reg State.setReg
  simp only [Vector.getElem_set]
  by_cases h : q = r
  · simp [h]
  · have : r.toNat ≠ q.toNat := fun e => h (BitVec.eq_of_toNat_eq e.symm)
    simp [h, this]

@[simp] theorem reg_setReg_self (s : State) (r : Reg) (v : Byte) : (s.setReg r v).reg r = v := by
  simp [reg_setReg]

/-- The result and the flag, each in its register; where they are one register the flag stays (41 R151). -/
theorem writeResultAndFlag_reg (s : State) (r : Reg) (result flag : Byte) (q : Reg) :
    (s.writeResultAndFlag r result flag).reg q =
      if q = flagReg then flag else if q = r then result else s.reg q := by
  simp [State.writeResultAndFlag, aluWriteOrder, reg_setReg]

/-- Writing a result and a flag touches registers only. -/
theorem writeResultAndFlag_eq (s : State) (r : Reg) (result flag : Byte) :
    s.writeResultAndFlag r result flag = { s with regs := (s.writeResultAndFlag r result flag).regs } := rfl

/-! ### The program counter -/

/-- A value masked to 12 bits stays below 4096 (10 R23). -/
theorem mask12_toNat (n : Nat) : (mask12 n).toNat = n % 4096 := by
  simp only [mask12, BitVec.toNat_ofNat]
  omega

theorem mask12_lt (n : Nat) : (mask12 n).toNat < 4096 := by
  rw [mask12_toNat]; omega

theorem nextPc_lt (p : Word) : (nextPc p).toNat < 4096 := mask12_lt _

/-- A 12-bit immediate as a pc is in range (10 R23). -/
theorem zextAddr_lt (nnn : Addr) : (zextAddr nnn).toNat < 4096 := by
  have : (zextAddr nnn).toNat = nnn.toNat := by
    unfold zextAddr
    rw [BitVec.toNat_setWidth]
    have := nnn.isLt
    omega
  omega

@[simp] theorem advancePc_pc (s : State) : s.advancePc.pc = nextPc s.pc := rfl

/-- A skip only moves pc, and only when its condition holds (40 R126). -/
theorem skipIf_eq (s : State) (c : Bool) : s.skipIf c = s.setPc (if c then nextPc s.pc else s.pc) := by
  cases c <;> rfl

/-! ### Bytes in sequence -/

/-- `writeBytes` touches memory only. -/
theorem writeBytes_eq (bs : List Byte) : ∀ (s : State) (a : Nat),
    s.writeBytes a bs = { s with mem := (s.writeBytes a bs).mem } := by
  induction bs with
  | nil => intro s a; rfl
  | cons b bs ih => intro s a; exact ih (s.writeByte a b) (a + 1)

/-- What memory reads after bytes were written from `a` upwards, fewer of them than there are cells. -/
theorem readByte_writeBytes (bs : List Byte) : ∀ (s : State) (a b : Nat), bs.length ≤ memBytes →
    (∀ k, (h : k < bs.length) → cellOf b = cellOf (a + k) → (s.writeBytes a bs).readByte b = bs[k]) ∧
    ((∀ k < bs.length, cellOf b ≠ cellOf (a + k)) → (s.writeBytes a bs).readByte b = s.readByte b) := by
  induction bs with
  | nil => intro s a b _; exact ⟨fun k h => absurd h (by simp), fun _ => rfl⟩
  | cons v bs ih =>
    intro s a b hl
    simp only [List.length_cons] at hl
    have key := ih (s.writeByte a v) (a + 1) b (by omega)
    refine ⟨fun k h hk => ?_, fun h => ?_⟩
    · cases k with
      | zero =>
        have hout : ∀ k < bs.length, cellOf b ≠ cellOf (a + 1 + k) := by
          intro k hk' e
          simp only [cellOf, memBytes] at hk e hl
          omega
        simp only [State.writeBytes, key.2 hout, readByte_writeByte]
        simp [hk]
      | succ k =>
        have hk' : cellOf b = cellOf (a + 1 + k) := by rw [hk]; congr 1; omega
        simpa [State.writeBytes] using key.1 k (by simpa using h) hk'
    · have h0 : cellOf b ≠ cellOf a := by simpa using h 0 (by simp)
      have hout : ∀ k < bs.length, cellOf b ≠ cellOf (a + 1 + k) := by
        intro k hk
        have := h (k + 1) (by simpa using hk)
        rwa [show a + (k + 1) = a + 1 + k by omega] at this
      simp only [State.writeBytes, key.2 hout, readByte_writeByte]
      simp [h0]

/-! ### The call stack -/

/-- A push onto a full stack does nothing (10 R27). -/
theorem push_full {s : State} (h : ¬ s.sp.val < 16) (v : Word) : s.push v = s := by
  simp [State.push, h]

/-- A push onto a stack that is not full writes the slot SP names and counts it (10 R27). -/
theorem push_room {s : State} (h : s.sp.val < 16) (v : Word) :
    s.push v = { s with stack := s.stack.set s.sp.val v h, sp := ⟨s.sp.val + 1, by omega⟩ } := by
  simp [State.push, h]

/-- Every slot after a push holds what it held, or the pushed value. -/
theorem push_slot (s : State) (v : Word) (k : Fin 16) : (s.push v).stack[k] = s.stack[k] ∨ (s.push v).stack[k] = v := by
  by_cases h : s.sp.val < 16
  · rw [push_room h]
    simp only [Fin.getElem_fin, Vector.getElem_set]
    split <;> simp
  · rw [push_full h]; simp

/-- A pop of an empty stack has no value (10 R27). -/
theorem pop_empty {s : State} (h : ¬ 0 < s.sp.val) : s.pop = none := by
  simp [State.pop, h]

/-- A pop takes the top slot, uncounts it and keeps its content (10 R27). -/
theorem pop_top {s : State} (h : 0 < s.sp.val) :
    s.pop = some (s.stack[s.sp.val - 1]'(by omega), { s with sp := ⟨s.sp.val - 1, by omega⟩ }) := by
  simp [State.pop, h]

/-! ### The screen -/

/-- One pixel of a row set, the others kept. -/
theorem setRowPixel_getLsbD (row : BitVec 64) (i j : Nat) (b : Bool) (hi : i < 64) (hj : j < 64) :
    (setRowPixel row i b).getLsbD j = if j = i then b else row.getLsbD j := by
  unfold setRowPixel
  split <;> split <;> simp_all

/-- A pixel write changes its own pixel and no other (10 R32). -/
theorem pixel_setPixel (s : State) (i j : Nat) (b : Bool) (h : i < 2048) :
    (s.setPixel i b).pixel j = if j = i then b else s.pixel j := by
  have hi : i / 64 < 32 := by omega
  unfold State.pixel State.setPixel
  simp only [hi, dite_true]
  split
  · rename_i hj
    rw [Vector.getElem_set]
    split
    · rename_i e
      rw [setRowPixel_getLsbD _ _ _ _ (by omega) (by omega)]
      by_cases hji : j = i
      · simp [hji]
      · have : j % 64 ≠ i % 64 := by omega
        simp [hji, this, e]
    · have : j ≠ i := by rintro rfl; contradiction
      simp [this]
  · have : j ≠ i := by rintro rfl; contradiction
    simp [this]

/-- A pixel write touches the framebuffer only. -/
theorem setPixel_eq (s : State) (i : Nat) (b : Bool) : s.setPixel i b = { s with fb := (s.setPixel i b).fb } := by
  unfold State.setPixel; split <;> rfl

@[simp] theorem setPixel_reg (s : State) (i : Nat) (b : Bool) (q : Reg) : (s.setPixel i b).reg q = s.reg q := by
  rw [setPixel_eq]; rfl

/-- A cleared screen has no lit pixel (43 R170). -/
@[simp] theorem pixel_clearScreen (s : State) (idx : Nat) : s.clearScreen.pixel idx = false := by
  simp [State.clearScreen, State.pixel]

/-- A sprite pixel always lands on the screen (43 R173). -/
theorem spriteCell_lt (vx vy : Byte) (row bit : Nat) : spriteCell vx vy row bit < 2048 := by
  unfold spriteCell fbIndex; omega

/-! ### The surroundings -/

/-- The end of an event touches the model's record of the surroundings only. -/
theorem endEvent_eq (s : State) :
    s.endEvent = { s with script := s.endEvent.script, draws := s.endEvent.draws } := by
  obtain ⟨regs, pc, I, sp, stack, dt, st, kw, tone, mem, fb, font, script, draws⟩ := s
  cases script <;> rfl

/-- The end of an event moves the record on by that event. -/
theorem endEvent_eventOver (s : State) : EventOver s s.endEvent := by
  unfold EventOver State.endEvent
  cases s.script <;> simp

/-- Scheduling a Step touches the model's record of the surroundings only. -/
theorem scheduleStep_eq (s : State) :
    s.scheduleStep = { s with script := s.scheduleStep.script, draws := s.scheduleStep.draws } := by
  unfold State.scheduleStep; split <;> rfl

/-- After scheduling, a Step comes next: the script's own first one, or one with free inputs whose number is then used up. -/
theorem scheduleStep_cases (s : State) :
    (s.scheduleStep.script = [.step (Config.keysAt s.draws) (Config.randomByteAt s.draws)] ∧
      s.scheduleStep.draws = s.draws + 1) ∨
    (∃ keys rand rest, s.scheduleStep.script = .step keys rand :: rest ∧ .step keys rand ∈ s.script ∧
      s.scheduleStep.draws = s.draws) := by
  unfold State.scheduleStep
  split
  · exact .inl ⟨rfl, rfl⟩
  · rename_i e rest h
    have hd : e.isStep = true := by
      have := List.head?_dropWhile_not (fun e => !Event.isStep e) s.script
      simpa [h] using this
    have hm : e ∈ s.script := (List.dropWhile_suffix _).subset (by rw [h]; exact List.mem_cons_self)
    cases e with
    | step keys rand => exact .inr ⟨keys, rand, rest, rfl, hm, rfl⟩
    | tick | reset | loadRom => simp [Event.isStep] at hd

/-- Going on from an answer gives a next state exactly when the answer is one. -/
theorem andThen_next {r : Result} {f : State → State} {t : State} :
    andThen r f = .next t ↔ ∃ u, r = .next u ∧ t = f u := by
  cases r <;> simp [andThen, eq_comm]

end Sys2Proof.Machine
end

