-- ==== Sys2Proof/Laws/Loops.lean ====
section
/-!
SUPPORT. The loops of DRW, ST.M and LD.M, and the key poll: what one turn does, and what a whole loop can touch.
-/

namespace Sys2Proof.Machine

/-! ### DRW (43 R171) -/

/-- A pixel XORed: only its own cell changes, by the sprite bit. -/
theorem xorPixel_pixel (s : State) (idx : Nat) (b : Bool) (j : Nat) (h : idx < 2048) :
    (s.xorPixel idx b).pixel j = if j = idx then s.pixel idx ^^ b else s.pixel j := by
  unfold State.xorPixel
  rw [pixel_setPixel _ _ _ _ h]
  split
  · rfl
  · split <;> simp

/-- A pixel XORed: VF becomes 1 on a collision, and no other register changes. -/
theorem xorPixel_reg (s : State) (idx : Nat) (b : Bool) (q : Reg) :
    (s.xorPixel idx b).reg q = if (b && s.pixel idx) = true ∧ q = flagReg then 1 else s.reg q := by
  unfold State.xorPixel
  rw [setPixel_reg]
  split
  · rename_i h; rw [reg_setReg]; simp [h]
  · rename_i h; simp [h]

/-- A pixel XORed touches registers and the framebuffer only. -/
theorem xorPixel_eq (s : State) (idx : Nat) (b : Bool) :
    s.xorPixel idx b = { s with regs := (s.xorPixel idx b).regs, fb := (s.xorPixel idx b).fb } := by
  unfold State.xorPixel
  rw [setPixel_eq]
  split <;> rfl

/-- What a loop touches, when each turn touches registers and the framebuffer only. -/
theorem foldl_eq_of_regs_fb {α : Type} (f : State → α → State)
    (hf : ∀ s a, f s a = { s with regs := (f s a).regs, fb := (f s a).fb }) (l : List α) (s : State) :
    l.foldl f s = { s with regs := (l.foldl f s).regs, fb := (l.foldl f s).fb } := by
  have h : ∀ s : State, ∃ regs fb, l.foldl f s = { s with regs := regs, fb := fb } := by
    induction l with
    | nil => intro s; exact ⟨_, _, rfl⟩
    | cons a l ih =>
      intro s
      obtain ⟨regs, fb, e⟩ := ih (f s a)
      exact ⟨regs, fb, by rw [List.foldl_cons, e, hf s a]⟩
  obtain ⟨regs, fb, e⟩ := h s
  rw [e]

/-- A sprite row touches registers and the framebuffer only. -/
theorem drawRow_eq (before : State) (x y : Reg) (s : State) (row : Nat) :
    drawRow before x y s row = { s with regs := (drawRow before x y s row).regs, fb := (drawRow before x y s row).fb } :=
  foldl_eq_of_regs_fb _ (fun t _ => xorPixel_eq t _ _) _ s

/-- A sprite touches registers and the framebuffer only. -/
theorem drawRows_eq (before : State) (x y : Reg) (rows : List Nat) (s : State) :
    rows.foldl (drawRow before x y) s =
      { s with regs := (rows.foldl (drawRow before x y) s).regs, fb := (rows.foldl (drawRow before x y) s).fb } :=
  foldl_eq_of_regs_fb _ (drawRow_eq before x y) rows s

/-- A sprite row changes no register but VF. -/
theorem drawRow_reg (before : State) (x y : Reg) (s : State) (row : Nat) {q : Reg} (h : q ≠ flagReg) :
    (drawRow before x y s row).reg q = s.reg q := by
  unfold drawRow
  generalize s.readByte (s.dataAddress row) = byte
  induction List.range 8 generalizing s with
  | nil => rfl
  | cons bit l ih => rw [List.foldl_cons, ih, drawPixel, xorPixel_reg]; simp [h]

/-- A sprite changes no register but VF. -/
theorem drawRows_reg (before : State) (x y : Reg) (rows : List Nat) {q : Reg} (h : q ≠ flagReg) : ∀ s : State,
    (rows.foldl (drawRow before x y) s).reg q = s.reg q := by
  induction rows with
  | nil => intro s; rfl
  | cons row l ih => intro s; rw [List.foldl_cons, ih, drawRow_reg _ _ _ _ _ h]

/-! ### ST.M and LD.M (45 R191, R192) -/

/-- The store loop touches memory only. -/
theorem storeRegs_eq (ks : List Nat) : ∀ s : State, ks.foldl storeReg s = { s with mem := (ks.foldl storeReg s).mem } := by
  induction ks with
  | nil => intro s; rfl
  | cons k l ih =>
    intro s
    simp only [List.foldl_cons]
    rw [ih (storeReg s k)]
    rfl

/-- The store loop keeps memory's canonical form. -/
theorem storeRegs_wf (ks : List Nat) : ∀ s : State, s.mem.wf s.font = true →
    (ks.foldl storeReg s).mem.wf s.font = true := by
  induction ks with
  | nil => intro s h; exact h
  | cons k l ih => intro s h; exact ih (storeReg s k) (writeByte_wf h _ _)

/-- The load loop touches registers only. -/
theorem loadRegs_eq (ks : List Nat) : ∀ s : State, ks.foldl loadReg s = { s with regs := (ks.foldl loadReg s).regs } := by
  induction ks with
  | nil => intro s; rfl
  | cons k l ih =>
    intro s
    simp only [List.foldl_cons]
    rw [ih (loadReg s k)]
    rfl

/-! ### The key poll (44 R184) -/

/-- All sixteen key codes are polled. -/
theorem mem_keyCodes (k : Nibble) : k ∈ keyCodes := by
  have h : k = BitVec.ofNat 4 k.toNat := by simp
  rw [h]
  exact List.mem_map_of_mem (List.mem_range.2 k.isLt)

/-- No key is found exactly when none is held. -/
theorem firstKey_none (s : State) : s.firstKey = none ↔ ∀ k, s.keyHeld k = false := by
  unfold State.firstKey
  rw [List.find?_eq_none]
  exact ⟨fun h k => by simpa using h k (mem_keyCodes k), fun h k _ => by simp [h k]⟩

/-- A poll that finds no key changes nothing. -/
theorem keyPoll_none {s : State} (h : s.firstKey = none) (r : Reg) : s.keyPoll r = s := by
  simp [State.keyPoll, h]

/-- A poll that finds a key writes its code and ends the wait. -/
theorem keyPoll_some {s : State} {k : Nibble} (h : s.firstKey = some k) (r : Reg) :
    s.keyPoll r = (s.setReg r (k.setWidth 8)).setKw none := by
  simp [State.keyPoll, h]

end Sys2Proof.Machine
end

