-- ==== Sys2Proof/Laws/PerInstr.lean ====
section
/-!
SUPPORT. Statements made for every instruction, one lemma per constructor.
`RowBits`: the word the encoder gives an instruction has the fixed bits of the instruction's own row of the opcode map
(30_encoding.md R95), whatever its operands.
-/

namespace Sys2Proof.Laws.RowBits

/-- The encoded word matches the row that bears the instruction's name. -/
def Statement (i : Instr) : Prop := ∃ r ∈ opcodeRows, r.mnemonic = i.mnemonic ∧ r.matches (encode i) = true

/-- From the row and the masked word to the statement. -/
theorem of_masked {i : Instr} (r : OpcodeRow) (hr : r ∈ opcodeRows) (hm : r.mnemonic = i.mnemonic)
    (h : encode i &&& r.mask = r.pattern) : Statement i :=
  ⟨r, hr, hm, by simp [OpcodeRow.matches, h]⟩

theorem cls (ign : Nibble) : Statement (.cls ign) :=
  of_masked ⟨"CLS", 0x00E0, 0xF0FF⟩ (by decide) rfl (and_byteMask _ ign _)

theorem ret (ign : Nibble) : Statement (.ret ign) :=
  of_masked ⟨"RET", 0x00EE, 0xF0FF⟩ (by decide) rfl (and_byteMask _ ign _)

theorem jp (nnn : Addr) : Statement (.jp nnn) :=
  of_masked ⟨"JP", 0x1000, 0xF000⟩ (by decide) rfl (and_groupMask_A _ nnn)

theorem call (nnn : Addr) : Statement (.call nnn) :=
  of_masked ⟨"CALL", 0x2000, 0xF000⟩ (by decide) rfl (and_groupMask_A _ nnn)

theorem seImm (x : Reg) (kk : Byte) : Statement (.seImm x kk) :=
  of_masked ⟨"SE.i", 0x3000, 0xF000⟩ (by decide) rfl (and_groupMask_I _ x kk)

theorem sneImm (x : Reg) (kk : Byte) : Statement (.sneImm x kk) :=
  of_masked ⟨"SNE.i", 0x4000, 0xF000⟩ (by decide) rfl (and_groupMask_I _ x kk)

theorem seReg (x y : Reg) (ign : Nibble) : Statement (.seReg x y ign) :=
  of_masked ⟨"SE.r", 0x5000, 0xF000⟩ (by decide) rfl (and_groupMask_R _ x y ign)

theorem ldImm (x : Reg) (kk : Byte) : Statement (.ldImm x kk) :=
  of_masked ⟨"LD.i", 0x6000, 0xF000⟩ (by decide) rfl (and_groupMask_I _ x kk)

theorem addImm (x : Reg) (kk : Byte) : Statement (.addImm x kk) :=
  of_masked ⟨"ADD.i", 0x7000, 0xF000⟩ (by decide) rfl (and_groupMask_I _ x kk)

theorem ldReg (x y : Reg) : Statement (.ldReg x y) :=
  of_masked ⟨"LD.r", 0x8000, 0xF00F⟩ (by decide) rfl (and_nibbleMask _ x y _)

theorem orReg (x y : Reg) : Statement (.orReg x y) :=
  of_masked ⟨"OR", 0x8001, 0xF00F⟩ (by decide) rfl (and_nibbleMask _ x y _)

theorem andReg (x y : Reg) : Statement (.andReg x y) :=
  of_masked ⟨"AND", 0x8002, 0xF00F⟩ (by decide) rfl (and_nibbleMask _ x y _)

theorem xorReg (x y : Reg) : Statement (.xorReg x y) :=
  of_masked ⟨"XOR", 0x8003, 0xF00F⟩ (by decide) rfl (and_nibbleMask _ x y _)

theorem addReg (x y : Reg) : Statement (.addReg x y) :=
  of_masked ⟨"ADD.r", 0x8004, 0xF00F⟩ (by decide) rfl (and_nibbleMask _ x y _)

theorem sub (x y : Reg) : Statement (.sub x y) :=
  of_masked ⟨"SUB", 0x8005, 0xF00F⟩ (by decide) rfl (and_nibbleMask _ x y _)

theorem shr (x y : Reg) : Statement (.shr x y) :=
  of_masked ⟨"SHR", 0x8006, 0xF00F⟩ (by decide) rfl (and_nibbleMask _ x y _)

theorem subn (x y : Reg) : Statement (.subn x y) :=
  of_masked ⟨"SUBN", 0x8007, 0xF00F⟩ (by decide) rfl (and_nibbleMask _ x y _)

theorem shl (x y : Reg) : Statement (.shl x y) :=
  of_masked ⟨"SHL", 0x800E, 0xF00F⟩ (by decide) rfl (and_nibbleMask _ x y _)

theorem sneReg (x y : Reg) (ign : Nibble) : Statement (.sneReg x y ign) :=
  of_masked ⟨"SNE.r", 0x9000, 0xF000⟩ (by decide) rfl (and_groupMask_R _ x y ign)

theorem ldI (nnn : Addr) : Statement (.ldI nnn) :=
  of_masked ⟨"LD.I", 0xA000, 0xF000⟩ (by decide) rfl (and_groupMask_A _ nnn)

theorem jpV0 (nnn : Addr) : Statement (.jpV0 nnn) :=
  of_masked ⟨"JP.V0", 0xB000, 0xF000⟩ (by decide) rfl (and_groupMask_A _ nnn)

theorem rnd (x : Reg) (kk : Byte) : Statement (.rnd x kk) :=
  of_masked ⟨"RND", 0xC000, 0xF000⟩ (by decide) rfl (and_groupMask_I _ x kk)

theorem drw (x y : Reg) (n : Nibble) : Statement (.drw x y n) :=
  of_masked ⟨"DRW", 0xD000, 0xF000⟩ (by decide) rfl (and_groupMask_R _ x y n)

theorem skp (x : Reg) : Statement (.skp x) :=
  of_masked ⟨"SKP", 0xE09E, 0xF0FF⟩ (by decide) rfl (and_byteMask _ x _)

theorem sknp (x : Reg) : Statement (.sknp x) :=
  of_masked ⟨"SKNP", 0xE0A1, 0xF0FF⟩ (by decide) rfl (and_byteMask _ x _)

theorem ldVdt (x : Reg) : Statement (.ldVdt x) :=
  of_masked ⟨"LD.VDT", 0xF007, 0xF0FF⟩ (by decide) rfl (and_byteMask _ x _)

theorem ldK (x : Reg) : Statement (.ldK x) :=
  of_masked ⟨"LD.K", 0xF00A, 0xF0FF⟩ (by decide) rfl (and_byteMask _ x _)

theorem ldDtv (x : Reg) : Statement (.ldDtv x) :=
  of_masked ⟨"LD.DTV", 0xF015, 0xF0FF⟩ (by decide) rfl (and_byteMask _ x _)

theorem ldStv (x : Reg) : Statement (.ldStv x) :=
  of_masked ⟨"LD.STV", 0xF018, 0xF0FF⟩ (by decide) rfl (and_byteMask _ x _)

theorem addI (x : Reg) : Statement (.addI x) :=
  of_masked ⟨"ADD.I", 0xF01E, 0xF0FF⟩ (by decide) rfl (and_byteMask _ x _)

theorem ldF (x : Reg) : Statement (.ldF x) :=
  of_masked ⟨"LD.F", 0xF029, 0xF0FF⟩ (by decide) rfl (and_byteMask _ x _)

theorem ldB (x : Reg) : Statement (.ldB x) :=
  of_masked ⟨"LD.B", 0xF033, 0xF0FF⟩ (by decide) rfl (and_byteMask _ x _)

theorem stM (x : Reg) : Statement (.stM x) :=
  of_masked ⟨"ST.M", 0xF055, 0xF0FF⟩ (by decide) rfl (and_byteMask _ x _)

theorem ldM (x : Reg) : Statement (.ldM x) :=
  of_masked ⟨"LD.M", 0xF065, 0xF0FF⟩ (by decide) rfl (and_byteMask _ x _)

theorem nop0 (bits : BitVec 12) : Statement (.nop0 bits) :=
  of_masked ⟨"NOP.0", 0x0000, 0xF000⟩ (by decide) rfl (and_groupMask_A _ bits)

theorem nop8 (bits : BitVec 12) : Statement (.nop8 bits) :=
  of_masked ⟨"NOP.8", 0x8000, 0xF000⟩ (by decide) rfl (and_groupMask_A _ bits)

theorem nopE (bits : BitVec 12) : Statement (.nopE bits) :=
  of_masked ⟨"NOP.E", 0xE000, 0xF000⟩ (by decide) rfl (and_groupMask_A _ bits)

theorem nopF (bits : BitVec 12) : Statement (.nopF bits) :=
  of_masked ⟨"NOP.F", 0xF000, 0xF000⟩ (by decide) rfl (and_groupMask_A _ bits)

end Sys2Proof.Laws.RowBits
end

