-- ==== Sys2Proof/Tests/Slice0.lean ====
section
/-!
SUPPORT. Tests. Expected results come from spec/95_test_vectors.md (its ids are cited) and from the encodings of
30_encoding.md R95. The start state is the reset state with one word at 0x200 and one Step as the next move.
-/

set_option maxRecDepth 20000

namespace Sys2Proof.Tests

open Sys2Proof Sys2Proof.Machine

/-- The reset state with a word at an address and pc there, and one Step with these inputs to come. -/
def startAt (a : Nat) (w : Word) (keys : BitVec 16 := 0) (rand : Byte := 0) : State :=
  { State.reset.writeBytes a (wordBytes w) with pc := BitVec.ofNat 16 a, script := [.step keys rand] }

/-- The same with the word at 0x200. -/
def start (w : Word) (keys : BitVec 16 := 0) (rand : Byte := 0) : State := startAt 0x200 w keys rand

/-- Whether a step answers a next state with a property. -/
def next (r : Result) (p : State → Bool) : Bool :=
  match r with
  | .next t => p t
  | .fault _ => false
  | .refused _ => false

/-- Several registers set. -/
def withRegs (s : State) : List (Reg × Byte) → State
  | [] => s
  | (r, v) :: rest => withRegs (s.setReg r v) rest

/-- Several pixels lit. -/
def withPixels (s : State) (idxs : List Nat) : State := idxs.foldl (fun t idx => t.setPixel idx true) s

/-- Whether exactly these pixels are lit, row-major indices. -/
def litAre (s : State) (idxs : List Nat) : Bool := s.fb == (withPixels State.reset idxs).fb

/-! ### Well-formedness: every check refuses an ill-formed term -/

/-- 0x00E0 is CLS, not NOP.0. -/
theorem test_illformed_nop0 : (Instr.nop0 0x0E0).wellFormed = false := by decide
/-- 0x3EE has RET's selector, so it is not NOP.0 either. -/
theorem test_illformed_nop0_ret : (Instr.nop0 0x3EE).wellFormed = false := by decide
/-- 0x812E is SHL, not NOP.8. -/
theorem test_illformed_nop8 : (Instr.nop8 0x12E).wellFormed = false := by decide
/-- 0xE4A1 is SKNP, not NOP.E. -/
theorem test_illformed_nopE : (Instr.nopE 0x4A1).wellFormed = false := by decide
/-- 0xF265 is LD.M, not NOP.F. -/
theorem test_illformed_nopF : (Instr.nopF 0x265).wellFormed = false := by decide
/-- Words of the no-op bands are well formed (30 R98). -/
theorem test_wellformed_nops : (Instr.nop0 0x123).wellFormed = true ∧ (Instr.nop8 0xAB9).wellFormed = true ∧
    (Instr.nopE 0x19F).wellFormed = true ∧ (Instr.nopF 0x085).wellFormed = true := by decide

/-! ### Decoding: one word of every row, written out bit by bit from the encodings of 30 R95 -/

theorem test_decode_group0 : decodeWord 0b0000000011100000 = .cls 0 ∧ decodeWord 0b0000000111100000 = .cls 1 ∧
    decodeWord 0b0000000011101110 = .ret 0 ∧ decodeWord 0b0000000100100011 = .nop0 0x123 := by decide
theorem test_decode_jumps : decodeWord 0b0001001000001010 = .jp 0x20A ∧ decodeWord 0b0010001000001100 = .call 0x20C ∧
    decodeWord 0b1011111111111111 = .jpV0 0xFFF := by decide
theorem test_decode_skips : decodeWord 0b0011000100000000 = .seImm 1 0x00 ∧ decodeWord 0b0100000000001111 = .sneImm 0 0x0F ∧
    decodeWord 0b0101001000110000 = .seReg 2 3 0 ∧ decodeWord 0b1001001000110001 = .sneReg 2 3 1 := by decide
theorem test_decode_immediates : decodeWord 0b0110101010111100 = .ldImm 10 0xBC ∧
    decodeWord 0b0111001100000101 = .addImm 3 0x05 := by decide
theorem test_decode_logic : decodeWord 0b1000001000010000 = .ldReg 2 1 ∧ decodeWord 0b1000000000010001 = .orReg 0 1 ∧
    decodeWord 0b1000000000010010 = .andReg 0 1 ∧ decodeWord 0b1000000000010011 = .xorReg 0 1 := by decide
theorem test_decode_arithmetic : decodeWord 0b1000000000010100 = .addReg 0 1 ∧ decodeWord 0b1000000000010101 = .sub 0 1 ∧
    decodeWord 0b1000000000010110 = .shr 0 1 ∧ decodeWord 0b1000000000010111 = .subn 0 1 ∧
    decodeWord 0b1000000000011110 = .shl 0 1 ∧ decodeWord 0b1000101010111001 = .nop8 0xAB9 := by decide
theorem test_decode_index_random : decodeWord 0b1010001100000000 = .ldI 0x300 ∧
    decodeWord 0b1100000000001111 = .rnd 0 0x0F ∧ decodeWord 0b1101000100100101 = .drw 1 2 5 := by decide
theorem test_decode_keys : decodeWord 0b1110000010011110 = .skp 0 ∧ decodeWord 0b1110000010100001 = .sknp 0 ∧
    decodeWord 0b1110000110011111 = .nopE 0x19F := by decide
theorem test_decode_timers : decodeWord 0b1111000100000111 = .ldVdt 1 ∧ decodeWord 0b1111001100001010 = .ldK 3 ∧
    decodeWord 0b1111000000010101 = .ldDtv 0 ∧ decodeWord 0b1111000000011000 = .ldStv 0 := by decide
theorem test_decode_index_memory : decodeWord 0b1111000100011110 = .addI 1 ∧ decodeWord 0b1111000000101001 = .ldF 0 ∧
    decodeWord 0b1111000000110011 = .ldB 0 ∧ decodeWord 0b1111001001010101 = .stM 2 ∧
    decodeWord 0b1111001001100101 = .ldM 2 ∧ decodeWord 0b1111000010000101 = .nopF 0x085 := by decide
/-- The first byte is the high one (20 R64), and one byte is no word. -/
theorem test_decode_bytes : decode [0x60, 0x0A, 0x70] = .ok (.ldImm 0 0x0A, [0x70]) ∧ decode [0x60] = .error .truncated := by
  decide
theorem test_encode_bytes : encodeBytes (.drw 1 2 5) = [0xD1, 0x25] ∧ encodeBytes (.nopF 0x085) = [0xF0, 0x85] := by decide
theorem test_table_word : decodeTableWord 16 0x8014 = some (.addReg 0 1) ∧ decodeTableWord 16 0x00E0 = some (.cls 0) := by
  decide

/-! ### Fetch and unrecognised words (95 §2.1) -/

/-- V-F-2: a word that straddles the top of memory. -/
theorem test_fetch_wraps : next (step ((startAt 0xFFF 0x612A)))
    (fun t => t.reg 1 == 0x2A && t.pc == 0x001) = true := by decide
/-- V-F-1. -/
theorem test_pc_wraps : next (step (startAt 0xFFE 0x6000)) (fun t => t.pc == 0) = true := by decide
/-- V-N-1. -/
theorem test_nop0 : next (step ((start 0x0000).setReg 4 5))
    (fun t => t == { (start 0x0000).setReg 4 5 with pc := 0x202, script := [] }) = true := by
  decide
/-- V-N-3. -/
theorem test_nop8 : next (step (start 0x8AB9))
    (fun t => t == { start 0x8AB9 with pc := 0x202, script := [] }) = true := by decide
/-- V-N-4. -/
theorem test_nopE : next (step (start 0xE19F))
    (fun t => t == { start 0xE19F with pc := 0x202, script := [] }) = true := by decide
/-- V-N-5. -/
theorem test_nopF : next (step (start 0xF075))
    (fun t => t == { start 0xF075 with pc := 0x202, script := [] }) = true := by decide
/-- The host's placing of a word makes the next step run it, from reset as from a key-wait with a Tick due. -/
theorem test_withFetchWord :
    next (step (State.reset.withFetchWord 16 0x6ABC)) (fun t => t.reg 10 == 0xBC) = true ∧
    next (step (({ State.reset with kw := some 3, script := [.tick, .step 0 0] } : State).withFetchWord 16 0x6ABC))
      (fun t => t.reg 10 == 0xBC) = true := by decide

/-- Two words placed one after the other take free inputs of different numbers (42 R161: the byte is wholly free). -/
theorem test_placed_steps_are_fresh :
    (State.reset.withFetchWord 16 0xC0FF).script = [.step (Config.keysAt 0) (Config.randomByteAt 0)] ∧
    next (step (State.reset.withFetchWord 16 0x6ABC))
      (fun t => (t.withFetchWord 16 0xC0FF).draws == 2 && t.script == [] && t.draws == 1) = true := ⟨rfl, by decide⟩

/-! ### Control transfer (95 §2.2) -/

/-- V-C-1. -/
theorem test_jp : next (step (start 0x120A)) (fun t => t.pc == 0x20A) = true := by decide
/-- V-C-3. -/
theorem test_call_pushes : next (step (startAt 0xFFE 0x2300))
    (fun t => t.stack[0] == 0 && t.sp == 1 && t.pc == 0x300) = true := by
  decide
/-- V-C-4. -/
theorem test_call_full : next (step { start 0x2300 with sp := 16, stack := Vector.replicate 16 0x23E })
    (fun t => t.sp == 16 && t.stack == Vector.replicate 16 0x23E && t.pc == 0x300) = true := by decide
/-- V-C-6. -/
theorem test_ret_pops : next (step { startAt 0x20E 0x00EE with sp := 1, stack := Vector.replicate 16 0x206 })
    (fun t => t.pc == 0x206 && t.sp == 0 && t.stack[0] == 0x206) = true := by decide
/-- V-C-5. -/
theorem test_ret_empty : next (step (start 0x00EE)) (fun t => t.pc == 0x202 && t.sp == 0) = true := by decide
/-- V-C-7. -/
theorem test_seImm_wraps : next (step (startAt 0xFFC 0x3000)) (fun t => t.pc == 0) = true := by decide
/-- V-C-8. -/
theorem test_seImm_not_taken : next (step (startAt 0xFFC 0x3001)) (fun t => t.pc == 0xFFE) = true := by decide
/-- V-C-9. -/
theorem test_sneImm : next (step ((start 0x400F).setReg 0 0x0F)) (fun t => t.pc == 0x202) = true ∧
    next (step ((start 0x4010).setReg 0 0x0F)) (fun t => t.pc == 0x204) = true := by decide
/-- V-C-11. -/
theorem test_seReg_ignores_n : next (step (start 0x5011)) (fun t => t.pc == 0x204) = true := by decide
/-- V-C-12 and V-C-13. -/
theorem test_sneReg : next (step (withRegs (start 0x9230) [(2, 7), (3, 8)])) (fun t => t.pc == 0x204) = true ∧
    next (step (start 0x9011)) (fun t => t.pc == 0x202) = true := by decide
/-- V-C-15. -/
theorem test_jpV0 : next (step ((start 0xB300).setReg 0 4)) (fun t => t.pc == 0x304) = true := by decide
/-- V-C-16. -/
theorem test_jpV0_masks : next (step ((start 0xBFFF).setReg 0 0xFF)) (fun t => t.pc == 0x0FE) = true := by decide

/-! ### Immediate and register ALU (95 §2.3, §2.4) -/

/-- V-I-1. -/
theorem test_ldImm : next (step (start 0x6ABC)) (fun t => t.reg 10 == 0xBC && t.pc == 0x202) = true := by decide
/-- V-I-3. -/
theorem test_addImm_no_carry : next (step (withRegs (start 0x7301) [(3, 0xFF), (15, 0x55)]))
    (fun t => t.reg 3 == 0 && t.reg 15 == 0x55) = true := by decide

/-- The start of the logic vectors. -/
def logicStart (w : Word) : State := withRegs (start w) [(0, 0xF0), (1, 0x3C), (15, 0x77)]

/-- V-A-1. -/
theorem test_ldReg : next (step (logicStart 0x8010)) (fun t => t.reg 0 == 0x3C && t.reg 15 == 0x77) = true := by decide
/-- V-A-2. -/
theorem test_orReg : next (step (logicStart 0x8011)) (fun t => t.reg 0 == 0xFC && t.reg 15 == 0x77) = true := by decide
/-- V-A-3. -/
theorem test_andReg : next (step (logicStart 0x8012)) (fun t => t.reg 0 == 0x30 && t.reg 15 == 0x77) = true := by decide
/-- V-A-4. -/
theorem test_xorReg : next (step (logicStart 0x8013)) (fun t => t.reg 0 == 0xCC && t.reg 15 == 0x77) = true := by decide

/-- The start of the arithmetic vectors. -/
def aluStart (w : Word) (a b : Byte) : State := withRegs (start w) [(0, a), (1, b), (15, 0xAA)]

/-- V-A-12: the sum is 256. -/
theorem test_addReg_carry : next (step (aluStart 0x8014 0xFF 0x01))
    (fun t => t.reg 0 == 0 && t.reg 15 == 1 && t.reg 1 == 1) = true := by
  decide
/-- V-A-40: the carry overwrites the sum (decision D4). -/
theorem test_addReg_flag_last : next (step (withRegs (start 0x8F14) [(15, 0xF0), (1, 0x20)]))
    (fun t => t.reg 15 == 1) = true := by
  decide
/-- V-A-17 and V-A-11: a borrow, and the strict comparison. -/
theorem test_sub : next (step (aluStart 0x8015 0x05 0x0A)) (fun t => t.reg 0 == 0xFB && t.reg 15 == 0) = true ∧
    next (step (aluStart 0x8015 0x01 0x01)) (fun t => t.reg 0 == 0 && t.reg 15 == 0) = true := by decide
/-- V-A-48: the old VF is the operand. -/
theorem test_sub_from_vf : next (step (withRegs (start 0x81F5) [(1, 5), (15, 5)]))
    (fun t => t.reg 1 == 0 && t.reg 15 == 0) = true := by
  decide
/-- V-A-19. -/
theorem test_subn : next (step (aluStart 0x8017 0x00 0x01)) (fun t => t.reg 0 == 1 && t.reg 15 == 1) = true := by decide
/-- V-A-44. -/
theorem test_subn_flag_last : next (step (withRegs (start 0x8F17) [(15, 0x10), (1, 0x30)]))
    (fun t => t.reg 15 == 1) = true := by
  decide
/-- V-A-36: VY is not read (decision D5). -/
theorem test_shr : next (step (aluStart 0x8016 0x81 0x33))
    (fun t => t.reg 0 == 0x40 && t.reg 15 == 1 && t.reg 1 == 0x33) = true := by
  decide
/-- V-A-36. -/
theorem test_shl : next (step (aluStart 0x801E 0x81 0x33))
    (fun t => t.reg 0 == 0x02 && t.reg 15 == 1 && t.reg 1 == 0x33) = true := by
  decide
/-- V-A-46. -/
theorem test_shl_flag_last : next (step ((start 0x8F1E).setReg 15 0x81)) (fun t => t.reg 15 == 1) = true := by decide

/-! ### Address register and random (95 §2.5) -/

/-- V-X-2. -/
theorem test_ldI : next (step { start 0xAFFF with I := 0xFFFF }) (fun t => t.I == 0x0FFF) = true := by decide
/-- V-X-4: past 0xFFF, VF untouched. -/
theorem test_addI_no_flag : next (step ({ start 0xF11E with I := 0x0FFF }.setReg 1 1))
    (fun t => t.I == 0x1000 && t.reg 15 == 0) = true := by
  decide
/-- V-X-6: the wrap at 16 bits. -/
theorem test_addI_wraps : next (step ({ start 0xF11E with I := 0xFF80 }.setReg 1 0xFF))
    (fun t => t.I == 0x007F) = true := by
  decide
/-- V-X-9: only the low nibble counts. -/
theorem test_ldF : next (step ((start 0xF029).setReg 0 0x1A)) (fun t => t.I == 0x0082) = true := by decide
/-- V-X-10. -/
theorem test_rnd : next (step (start 0xC00F 0 0xA7)) (fun t => t.reg 0 == 0x07) = true := by decide

/-! ### Display (95 §2.6) -/

/-- V-CLS-1. -/
theorem test_cls : next (step ({ start 0x00E0 with fb := Vector.replicate 32 (BitVec.allOnes 64) }.setReg 15 1))
    (fun t => litAre t [] && t.reg 15 == 1) = true := by decide +kernel
/-- V-DRW-1: glyph 7 across the right and the bottom edge, the 8 pixels P4 of 95 §3 lists by index. -/
theorem test_drw_wraps : next (step (withRegs { start 0xD125 with I := 0x73 } [(1, 61), (2, 30)]))
    (fun t => litAre t [1981, 1982, 1983, 1920, 1984, 63, 126, 190] && t.reg 15 == 0 && t.I == 0x73) = true := by
  decide +kernel
/-- V-DRW-8: VF as a coordinate is read at every pixel (decision D8); pixels (2,0), (1,1), (2,1). -/
theorem test_drw_live_vf :
    next (step (((withPixels { start 0xDF02 with I := 0x300 } [0]).writeBytes 0x300 [0xC0, 0xC0]).setReg 15 9))
      (fun t => litAre t [2, 65, 66] && t.reg 15 == 1) = true := by decide +kernel

/-! ### Keys and timers (95 §2.7) -/

/-- V-KEY-6: key 5 held, VX = 0x15. -/
theorem test_skp : next (step ((start 0xE09E 0x0020).setReg 0 0x15)) (fun t => t.pc == 0x204) = true := by decide
/-- V-KEY-2. -/
theorem test_skp_not_held : next (step ((start 0xE09E).setReg 0 5)) (fun t => t.pc == 0x202) = true := by decide
/-- V-KEY-3. -/
theorem test_sknp : next (step ((start 0xE0A1 0x0020).setReg 0 5)) (fun t => t.pc == 0x202) = true := by decide
/-- V-KEY-4. -/
theorem test_sknp_not_held : next (step ((start 0xE0A1).setReg 0 5)) (fun t => t.pc == 0x204) = true := by decide
/-- V-KEY-5, Step 1: a held key is not looked at. -/
theorem test_ldK : next (step (start 0xF30A 0xFFFF))
    (fun t => t.kw == some 3 && t.pc == 0x202 && t.reg 3 == 0) = true := by decide
/-- V-KEY-5, Step 3: keys 7 and 9 held; the pc stays. -/
theorem test_key_poll : next (step { start 0x6401 0x0280 with kw := some 3 })
    (fun t => t.reg 3 == 7 && t.kw == none && t.pc == 0x200 && t.reg 4 == 0) = true := by decide
/-- V-KEY-5, Step 2: no key held, nothing happens. -/
theorem test_key_poll_none : next (step { start 0x6401 with kw := some 3 })
    (fun t => t == { start 0x6401 with kw := some 3, script := [] }) = true := by decide
/-- V-TMR-4, second Step. -/
theorem test_ldVdt : next (step { start 0xF107 with dt := 0x3C })
    (fun t => t.reg 1 == 0x3C && t.dt == 0x3C) = true := by decide
/-- V-TMR-4, first Step. -/
theorem test_ldDtv : next (step ((start 0xF015).setReg 0 0x3C)) (fun t => t.dt == 0x3C && t.st == 0) = true := by decide
/-- V-TMR-3: the tone does not start at the write. -/
theorem test_ldStv : next (step ((start 0xF018).setReg 0 1))
    (fun t => t.st == 1 && t.tone == false && t.dt == 0) = true := by decide
/-- V-TMR-1, the first Tick; and V-TMR-3, its Tick. -/
theorem test_tick : next (step { State.reset with dt := 1, st := 2, script := [.tick] })
      (fun t => t.dt == 0 && t.st == 1 && t.tone) = true ∧
    next (step { State.reset with st := 1, tone := true, script := [.tick] }) (fun t => t.st == 0 && !t.tone && t.dt == 0) = true := by
  decide
/-- A load places bytes from 0x200 (P1 of 95 §3), and keeps the rest. -/
theorem test_load : next (step { State.reset with script := [.loadRom [0x60, 0x0A, 0x70, 0x05]] })
    (fun t => t.readByte 0x200 == 0x60 && t.readByte 0x203 == 0x05 && t.readByte 0x204 == 0 && t.readByte 0x50 == 0xF0) = true := by
  decide

/-! ### Memory instructions (95 §2.8) -/

/-- V-M-1 with 234. -/
theorem test_ldB : next (step ({ start 0xF033 with I := 0x300 }.setReg 0 234))
    (fun t => t.readByte 0x300 == 2 && t.readByte 0x301 == 3 && t.readByte 0x302 == 4) = true := by decide
/-- V-M-2: the last byte wraps to 0x000. -/
theorem test_ldB_wraps : next (step ({ start 0xF033 with I := 0xFFE }.setReg 0 0xFF))
    (fun t => t.readByte 0xFFE == 2 && t.readByte 0xFFF == 5 && t.readByte 0 == 5 && t.I == 0xFFE) = true := by decide
/-- V-M-3: V3 is not stored. -/
theorem test_stM : next (step (withRegs { start 0xF255 with I := 0x400 } [(0, 1), (1, 2), (2, 3), (3, 4)]))
    (fun t => t.readByte 0x400 == 1 && t.readByte 0x402 == 3 && t.readByte 0x403 == 0 && t.I == 0x400) = true := by decide
/-- V-M-7: X = 0 stores one byte. -/
theorem test_stM_one : next (step (withRegs { start 0xF055 with I := 0x300 } [(0, 7), (1, 9)]))
    (fun t => t.readByte 0x300 == 7 && t.readByte 0x301 == 0) = true := by decide
/-- V-M-5: I is masked at the access only. -/
theorem test_ldM_wraps :
    next (step (({ start 0xF265 with I := 0x1FFE }.writeBytes 0xFFE [0xAA, 0xBB]).writeBytes 0 [0xCC]))
      (fun t => t.reg 0 == 0xAA && t.reg 1 == 0xBB && t.reg 2 == 0xCC && t.I == 0x1FFE) = true := by decide
/-- V-M-6: glyph 0; V5 is not loaded. -/
theorem test_ldM_font : next (step { start 0xF465 with I := 0x50 })
    (fun t => t.reg 0 == 0xF0 && t.reg 1 == 0x90 && t.reg 4 == 0xF0 && t.reg 5 == 0) = true := by decide

/-! ### Reset memory at the edges of the font (20 R69, R70) -/

/-- Both sides of both ends of the font, a cell in the middle of it, and the ends of memory. -/
theorem test_reset_memory_edges : State.reset.readByte 0x4F = 0 ∧ State.reset.readByte 0x50 = 0xF0 ∧
    State.reset.readByte 0x73 = 0xF0 ∧ State.reset.readByte 0x9F = 0x80 ∧ State.reset.readByte 0xA0 = 0 ∧
    State.reset.readByte 0 = 0 ∧ State.reset.readByte 0xFFF = 0 := by decide

/-- The font is an argument (00 R6): a machine with another font reads its own, after reset and after a Reset event. -/
theorem test_other_font :
    (State.resetWith (Vector.replicate 80 0x3C)).readByte 0x50 = 0x3C ∧
    (State.resetWith (Vector.replicate 80 0x3C)).readByte 0xA0 = 0 ∧
    next (step { (State.resetWith (Vector.replicate 80 0x3C)).writeByte 0x50 1 with script := [.reset] })
      (fun t => t.readByte 0x50 == 0x3C && t.mem == []) = true := by decide

/-! ### Witnesses: for every statement with hypotheses, states and operands that meet all of them together -/

/-- A state a Reset would change: a register, the stack, the screen and the timers in use, a key-wait pending. -/
def busy (script : List Event) : State :=
  withPixels (withRegs { State.reset with
    pc := 0x300, I := 0x400, sp := 1, stack := Vector.replicate 16 0x206, dt := 1, st := 2, kw := some 3, script := script }
    [(0, 7), (15, 1)]) [0]

theorem witness_ResetEventRestoresResetState : (busy [.reset, .tick]).nextEvent = .reset ∧
    busy [.reset] ≠ State.reset := by decide

/-- Both timers at a value that stops at 0 and one that does not, in a key-wait. -/
theorem witness_TickCountsTimersDownAndSetsTone : (busy [.tick]).nextEvent = .tick ∧
    next (step (busy [.tick])) (fun t => t.dt == 0 && t.st == 1 && t.tone && t.kw == some 3) = true := by decide

/-- An image of `n` equal bytes. -/
def image (n : Nat) : List Byte := List.replicate n 0x12

theorem image_length (n : Nat) : (image n).length = n := List.length_replicate

/-- The longest image that fits. -/
theorem witness_LoadPlacesImageFrom200 : (busy [.loadRom (image 3583)]).nextEvent = .loadRom (image 3583) ∧
    (image 3583).length ≤ 3583 := ⟨rfl, Nat.le_of_eq (image_length 3583)⟩

/-- The shortest image that does not fit. -/
theorem witness_LoadTooLargeChangesNothing : (busy [.loadRom (image 3584)]).nextEvent = .loadRom (image 3584) ∧
    3583 < (image 3584).length := ⟨rfl, Nat.le_of_eq (image_length 3584).symm⟩

theorem witness_StepRunsDecodedInstruction : (start 0x6ABC 1 2).nextEvent = .step 1 2 ∧ (start 0x6ABC 1 2).kw = none ∧
    decode [(start 0x6ABC 1 2).readByte 0x200, (start 0x6ABC 1 2).readByte 0x201] = .ok (.ldImm 10 0xBC, []) ∧
    (Instr.ldImm 10 0xBC).wellFormed = true := by decide

/-- The ends of the two kinds of event: a scripted one and, with the script empty, an unscripted one. -/
theorem witness_StepRunsDecodedInstruction_end : (start 0x6ABC).endEvent.script = [] ∧ (start 0x6ABC).endEvent.draws = 0 ∧
    State.reset.endEvent.draws = 1 := by decide

/-- The lowest key is 0, 7 or 15; or none is held. -/
theorem witness_KeyPollTakesLowestHeldKey :
    ({ start 0 0x0280 with kw := some 3 } : State).nextEvent = .step 0x0280 0 ∧
    ({ start 0 0x0280 with kw := some 3 } : State).kw = some 3 ∧
    ((0xFFFF : BitVec 16).getLsbD 0 = true ∧ ∀ j : Nibble, j.toNat < 0 → (0xFFFF : BitVec 16).getLsbD j.toNat = false) ∧
    ((0x0280 : BitVec 16).getLsbD 7 = true ∧ ∀ j : Nibble, j.toNat < 7 → (0x0280 : BitVec 16).getLsbD j.toNat = false) ∧
    ((0x8000 : BitVec 16).getLsbD 15 = true ∧ ∀ j : Nibble, j.toNat < 15 → (0x8000 : BitVec 16).getLsbD j.toNat = false) ∧
    (∀ k : Nibble, (0 : BitVec 16).getLsbD k.toNat = false) := by decide +kernel

theorem ldImm_fetched : decodeWord (start 0x6ABC).fetchWord = .ldImm 10 0xBC := by decide

/-- A Step in a key-wait, and one whose instruction is no timer write. -/
theorem witness_StepNeverCountsTimers :
    (∃ t, ({ start 0xF015 with kw := some 3 } : State).nextEvent = .step 0 0 ∧ step { start 0xF015 with kw := some 3 } = .next t ∧
      ({ start 0xF015 with kw := some 3 } : State).kw ≠ none) ∧
    (∃ t, (start 0x6ABC).nextEvent = .step 0 0 ∧ step (start 0x6ABC) = .next t ∧
      (∀ x, decodeWord (start 0x6ABC).fetchWord ≠ .ldDtv x) ∧ ∀ x, decodeWord (start 0x6ABC).fetchWord ≠ .ldStv x) :=
  ⟨⟨_, rfl, rfl, by decide⟩, ⟨_, rfl, rfl, ldImm_fetched ▸ by simp, ldImm_fetched ▸ by simp⟩⟩

theorem witness_FinishedStateStaysFinished : (start 0x1200).Finished 0x200 ∧ (start 0x1200).nextEvent = .step 0 0 ∧
    (startAt 0xFFF 0x1FFF).Finished 0xFFF := by decide

theorem witness_EveryStepKeepsStateInRange : ∃ t, (startAt 0xFFE 0x2FFF).Inv ∧ step (startAt 0xFFE 0x2FFF) = .next t :=
  ⟨_, by decide, rfl⟩

theorem witness_ScreenChangedOnlyByClearAndDraw : ∃ t, exec (.stM 2) (busy []) = .next t ∧ (∀ g, Instr.stM 2 ≠ .cls g) ∧
    ∀ x y n, Instr.stM 2 ≠ .drw x y n := ⟨_, rfl, by simp, by simp⟩

theorem witness_MemoryWrittenOnlyByStores : ∃ t, exec (.ldM 2) (busy []) = .next t ∧ (∀ x, Instr.ldM 2 ≠ .ldB x) ∧
    ∀ x, Instr.ldM 2 ≠ .stM x := ⟨_, rfl, by simp, by simp⟩

/-- RET for the slots, JP for SP as well. -/
theorem witness_StackChangedOnlyByCallAndReturn :
    (∃ t, exec (.ret 0) (busy []) = .next t ∧ ∀ a, Instr.ret 0 ≠ .call a) ∧
    (∃ t, exec (.jp 0x200) (busy []) = .next t ∧ (∀ a, Instr.jp 0x200 ≠ .call a) ∧ ∀ g, Instr.jp 0x200 ≠ .ret g) :=
  ⟨⟨_, rfl, by simp⟩, ⟨_, rfl, by simp, by simp⟩⟩

theorem witness_AddressRegisterWrittenByThree : ∃ t, exec (.stM 2) (busy []) = .next t ∧ (∀ a, Instr.stM 2 ≠ .ldI a) ∧
    (∀ x, Instr.stM 2 ≠ .addI x) ∧ ∀ x, Instr.stM 2 ≠ .ldF x := ⟨_, rfl, by simp, by simp, by simp⟩

theorem witness_PcChangedOnlyByControlTransfer : ∃ t, exec (.ldK 2) (busy []) = .next t ∧ (∀ g, Instr.ldK 2 ≠ .ret g) ∧
    (∀ a, Instr.ldK 2 ≠ .jp a) ∧ (∀ a, Instr.ldK 2 ≠ .call a) ∧ (∀ a, Instr.ldK 2 ≠ .jpV0 a) ∧
    (∀ x k, Instr.ldK 2 ≠ .seImm x k) ∧ (∀ x k, Instr.ldK 2 ≠ .sneImm x k) ∧ (∀ x y g, Instr.ldK 2 ≠ .seReg x y g) ∧
    (∀ x y g, Instr.ldK 2 ≠ .sneReg x y g) ∧ (∀ x, Instr.ldK 2 ≠ .skp x) ∧ ∀ x, Instr.ldK 2 ≠ .sknp x :=
  ⟨_, rfl, by simp, by simp, by simp, by simp, by simp, by simp, by simp, by simp, by simp, by simp⟩

/-- LD.DTV for ST and KW, LD.STV for DT. -/
theorem witness_TimersAndKeyWaitHaveOneWriterEach :
    (∃ t, exec (.ldDtv 0) (busy []) = .next t ∧ (∀ x, Instr.ldDtv 0 ≠ .ldStv x) ∧ ∀ x, Instr.ldDtv 0 ≠ .ldK x) ∧
    (∃ t, exec (.ldStv 0) (busy []) = .next t ∧ ∀ x, Instr.ldStv 0 ≠ .ldDtv x) :=
  ⟨⟨_, rfl, by simp, by simp⟩, ⟨_, rfl, by simp⟩⟩

/-- LD.M with X = 3 leaves V4; ADD.r to V0 leaves V1. -/
theorem witness_RegistersHaveOnlyTheirNamedWriters :
    (∃ t, exec (.ldM 3) (busy []) = .next t ∧ ¬ WritesReg (.ldM 3) 4) ∧
    (∃ t, exec (.addReg 0 1) (busy []) = .next t ∧ ¬ WritesReg (.addReg 0 1) 1) :=
  ⟨⟨_, rfl, by simp [WritesReg]⟩, ⟨_, rfl, by simp [WritesReg, flagReg]⟩⟩

theorem witness_OnlyThreeInstructionsReadInputs : (∀ x, Instr.drw 1 2 5 ≠ .skp x) ∧ (∀ x, Instr.drw 1 2 5 ≠ .sknp x) ∧
    ∀ x k, Instr.drw 1 2 5 ≠ .rnd x k := by simp

/-- I = 0x400 against 0xF400, at an instruction that addresses memory through I. -/
theorem witness_UpperAddressBitsAreUnobservable : ∃ t, (0xF400 : Word).toNat % 4096 = (busy []).I.toNat % 4096 ∧
    exec (.ldM 2) (busy []) = .next t := ⟨_, by decide, rfl⟩

/-- One address held, sixteen held, none held. -/
theorem witness_ReturnPopsOrFallsThrough : 0 < (busy []).sp.val ∧ 0 < ({ busy [] with sp := 16 } : State).sp.val ∧
    State.reset.sp.val = 0 := by decide

/-- The first slot, the last slot, a full stack. -/
theorem witness_CallPushesPostFetchPcAndJumps : State.reset.sp.val < 16 ∧ ({ busy [] with sp := 15 } : State).sp.val < 16 ∧
    ({ busy [] with sp := 16 } : State).sp.val = 16 := by decide

theorem witness_CallThenReturnComesBack :
    (∃ u, exec (.call 0x20C) { busy [] with sp := 15 } = .next u ∧ ({ busy [] with sp := 15 } : State).sp.val < 16) ∧
    (∃ u, exec (.call 0x20C) { busy [] with sp := 16 } = .next u ∧ ({ busy [] with sp := 16 } : State).sp.val = 16) :=
  ⟨⟨_, rfl, by decide⟩, ⟨_, rfl, by decide⟩⟩

/-- Equal and unequal, a skip that wraps the pc. -/
theorem witness_skips : (busy []).reg 0 = 7 ∧ (busy []).reg 0 ≠ 8 ∧ (busy []).reg 0 ≠ (busy []).reg 1 ∧
    (busy []).reg 2 = (busy []).reg 1 ∧
    next (exec (.seImm 0 7) { busy [] with pc := 0xFFE }) (fun t => t.pc == 0) = true := by decide

/-- Sums of 255 and of 256 with X other than 15, and a sum with X = 15. -/
theorem witness_AddWritesSumAndCarry : (0 : Reg) ≠ 15 ∧
    next (exec (.addReg 0 1) (aluStart 0 0xFE 0x01)) (fun t => t.reg 0 == 0xFF && t.reg 15 == 0) = true ∧
    next (exec (.addReg 0 1) (aluStart 0 0xFF 0x01)) (fun t => t.reg 0 == 0 && t.reg 15 == 1) = true ∧
    next (exec (.addReg 15 1) (aluStart 0 0 0x56)) (fun t => t.reg 15 == 1) = true := by decide

/-- Equal operands, one apart either way, and X = 15. -/
theorem witness_SubtractsWriteDifferenceAndStrictFlag : (0 : Reg) ≠ 15 ∧
    next (exec (.sub 0 1) (aluStart 0 5 5)) (fun t => t.reg 0 == 0 && t.reg 15 == 0) = true ∧
    next (exec (.sub 0 1) (aluStart 0 6 5)) (fun t => t.reg 0 == 1 && t.reg 15 == 1) = true ∧
    next (exec (.subn 0 1) (aluStart 0 6 5)) (fun t => t.reg 0 == 0xFF && t.reg 15 == 0) = true ∧
    next (exec (.sub 15 1) (aluStart 0 0 5)) (fun t => t.reg 15 == 1) = true := by decide

theorem witness_ShiftsMoveVxByOneAndKeepTheBit : (0 : Reg) ≠ 15 ∧
    next (exec (.shr 0 1) (aluStart 0 0xFF 0)) (fun t => t.reg 0 == 0x7F && t.reg 15 == 1) = true ∧
    next (exec (.shl 0 1) (aluStart 0 0x7F 0)) (fun t => t.reg 0 == 0xFE && t.reg 15 == 0) = true := by decide

/-- Words of LD.i, ADD.i and LD.K, the fields at their ends. -/
theorem witness_Encodes : (0x600A : Word) &&& 0xF000 = 0x6000 ∧ (0x7FFF : Word) &&& 0xF000 = 0x7000 ∧
    (0xFF0A : Word) &&& 0xF0FF = 0xF00A ∧ decodeWord 0xFF0A = .ldK 15 := by decide

/-- A key-wait under way, no key held and key 0 held. -/
theorem witness_EnterKeyWaitSetsTheTarget : ({ start 0 with kw := some 15 } : State).nextEvent = .step 0 0 ∧
    ({ start 0 with kw := some 15 } : State).kw = some 15 ∧
    next (step { start 0 0x0001 with kw := some 15 }) (fun t => t.reg 15 == 0 && t.kw == none) = true := by decide

theorem witness_RandomIsTheOfferedByteUnderTheMask : (start 0 0 0xA7).nextEvent = .step 0 0xA7 := by decide

/-- Two rows, the first of them FF, at the top left; with pixel 0 lit or no pixel lit. -/
def drawStart (lit : List Nat) : State := withPixels ({ State.reset with I := 0x300 }.writeBytes 0x300 [0xFF, 0x80]) lit

/-- A collision, with X and Y other than 15. -/
theorem witness_DrawXorsSpriteAndReportsCollision : (0 : Reg) ≠ 15 ∧ (1 : Reg) ≠ 15 ∧
    SpriteCollides (drawStart [0]) ((drawStart [0]).reg 0) ((drawStart [0]).reg 1) (2 : Nibble).toNat :=
  ⟨by decide, by decide, 0, ⟨0, by decide, 0, by decide, by decide, rfl⟩, by decide⟩

/-- No collision, the screen being clear: with X and Y other than 15, and with X = 15 and VF not 0. -/
theorem witness_DrawWithoutCollisionReadsClearedVf : ¬ SpriteCollides (drawStart []) 0 0 (2 : Nibble).toNat ∧
    ((drawStart []).setReg 15 9).reg 15 ≠ 0 ∧ ¬ SpriteCollides ((drawStart []).setReg 15 9) 0 0 (2 : Nibble).toNat := by
  refine ⟨?_, by decide, ?_⟩ <;>
  · rintro ⟨idx, ⟨row, _, bit, _, _, rfl⟩, h⟩
    have : (drawStart []).fb = Vector.replicate 32 0 := by decide
    revert h
    show ¬ State.pixel _ _ = true
    unfold State.pixel
    split
    · show ¬ BitVec.getLsbD ((drawStart []).fb[_]) _ = true
      simp [this]
    · simp

/-- V-DRW-8's shape: VF as the column, and a first collision at the first position; and one at the last of a row, Y = 15. -/
theorem witness_DrawAfterCollisionReadsRaisedVf :
    (0 < 8 * (2 : Nibble).toNat ∧ SpriteHasBit (drawStart [0]) 0 ∧ (drawStart [0]).pixel (spritePixelAt 0 0 0) = true) ∧
    (7 < 8 * (2 : Nibble).toNat ∧ SpriteHasBit (drawStart [7]) 7 ∧ (drawStart [7]).pixel (spritePixelAt 0 0 7) = true ∧
      ∀ k < 7, (drawStart [7]).pixel (spritePixelAt 0 0 k) = false) ∧
    next (exec (.drw 0 15 2) (drawStart [7])) (fun t => litAre t [0, 1, 2, 3, 4, 5, 6, 128] && t.reg 15 == 1) = true := by
  unfold SpriteHasBit
  decide +kernel

/-- N = 0 and N = 15. -/
theorem witness_DrawChangesFlagAndPixelsOnly :
    next (exec (.drw 0 1 0) ((drawStart [0]).setReg 15 1)) (fun t => t.reg 15 == 0 && t.fb == (drawStart [0]).fb) = true ∧
    next (exec (.drw 0 1 15) (drawStart [0])) (fun t => t.reg 15 == 1) = true := by decide +kernel

/-- A first draw that lights a pixel, and one that only puts lit pixels out. -/
theorem witness_DrawTwiceRestoresTheScreen :
    (∃ t, (0 : Reg) ≠ 15 ∧ (1 : Reg) ≠ 15 ∧ exec (.drw 0 1 2) (drawStart [0]) = .next t ∧
      ∃ idx, SpriteCovers (drawStart [0]) ((drawStart [0]).reg 0) ((drawStart [0]).reg 1) (2 : Nibble).toNat idx ∧
        (drawStart [0]).pixel idx = false) ∧
    (∃ t, exec (.drw 0 1 1) (drawStart [0, 1, 2, 3, 4, 5, 6, 7]) = .next t ∧
      ∀ idx, SpriteCovers (drawStart [0, 1, 2, 3, 4, 5, 6, 7]) ((drawStart [0, 1, 2, 3, 4, 5, 6, 7]).reg 0)
        ((drawStart [0, 1, 2, 3, 4, 5, 6, 7]).reg 1) (1 : Nibble).toNat idx →
        (drawStart [0, 1, 2, 3, 4, 5, 6, 7]).pixel idx = true) := by
  refine ⟨⟨_, by decide, by decide, rfl, 1, ⟨0, by decide, 1, by decide, by decide, rfl⟩, by decide⟩, ⟨_, rfl, ?_⟩⟩
  rintro idx ⟨row, hrow, bit, hbit, _, rfl⟩
  obtain rfl : row = 0 := Nat.lt_one_iff.mp hrow
  have top : ∀ bit < 8, (drawStart [0, 1, 2, 3, 4, 5, 6, 7]).pixel (fbIndex ((0 + bit) % 64) ((0 + 0) % 32)) = true := by decide
  exact top bit hbit

/-- The last row and the last bit of a sprite across both edges. -/
theorem witness_SpritePixelsNeverCoincide : 15 < 16 ∧ 7 < 8 ∧ spriteCell 63 31 15 7 = spriteCell 0x3F 0x1F 15 7 ∧
    spriteCell 63 31 15 7 ≠ spriteCell 63 31 15 6 := by decide

theorem witness_FontNeverChanges : ∃ t, step (busy [.reset]) = .next t := ⟨_, rfl⟩

theorem witness_KeySkipsFollowTheSample : (start 0 0x0020).nextEvent = .step 0x0020 0 ∧ (start 0 0x0020).keyHeld 5 = true ∧
    (start 0 0x0020).keyHeld 6 = false := by decide

theorem witness_DelayTimerReadsBackWhatWasWritten : ∃ t u, exec (.ldDtv 0) (busy []) = .next t ∧ exec (.ldVdt 1) t = .next u :=
  ⟨_, _, rfl, rfl⟩

/-- The bytes at the ends of the stored range, I at the top of memory. -/
theorem witness_StoreRegistersWritesV0ToVx : (0 : Nat) ≤ (15 : Reg).toNat ∧ 15 ≤ (15 : Reg).toNat ∧
    next (exec (.stM 15) ({ State.reset with I := 0xFF8 }.setReg 15 0x1F)) (fun t => t.readByte 0x007 == 0x1F) = true :=
  by decide

theorem witness_LoadRegistersReadsV0ToVx : 15 ≤ (15 : Reg).toNat ∧
    next (exec (.ldM 15) { State.reset with I := 0x50 }) (fun t => t.reg 0 == 0xF0 && t.reg 15 == 0xF0) = true := by decide

theorem witness_StoredWordIsFetchedNext : ∃ t, 1 ≤ (1 : Reg).toNat ∧ exec (.stM 1) (busy []) = .next t := ⟨_, by decide, rfl⟩

theorem witness_DecodeInvertsEncode : (Instr.ldM 15).wellFormed = true ∧ (Instr.nop8 0xFFF).wellFormed = true ∧
    (Instr.nopF 0x085).wellFormed = true := by decide

end Sys2Proof.Tests
end

section
/-!
SUPPORT. What the transitions do that `step` is made of, once each: the load, the Step and the event; and that none of them
writes the parameter FONT (00_scope.md R6, 10_state.md R40).
-/

namespace Sys2Proof.Machine

/-! ### FONT through each shared operation -/

@[simp] theorem advancePc_font (s : State) : s.advancePc.font = s.font := rfl

@[simp] theorem skipIf_font (s : State) (c : Bool) : (s.skipIf c).font = s.font := by rw [skipIf_eq, setPc_font]

@[simp] theorem writeResultAndFlag_font (s : State) (r : Reg) (result flag : Byte) :
    (s.writeResultAndFlag r result flag).font = s.font := rfl

@[simp] theorem writeBytes_font (s : State) (a : Nat) (bs : List Byte) : (s.writeBytes a bs).font = s.font := by
  rw [writeBytes_eq]

@[simp] theorem push_font (s : State) (v : Word) : (s.push v).font = s.font := by
  by_cases h : s.sp.val < 16
  · rw [push_room h]
  · rw [push_full h]

theorem pop_font {s t : State} {target : Word} (h : s.pop = some (target, t)) : t.font = s.font := by
  by_cases hsp : 0 < s.sp.val
  · rw [pop_top hsp] at h
    cases h
    rfl
  · rw [pop_empty hsp] at h
    cases h

@[simp] theorem drawRows_font (before : State) (x y : Reg) (rows : List Nat) (s : State) :
    (rows.foldl (drawRow before x y) s).font = s.font := by
  rw [drawRows_eq]

@[simp] theorem storeRegs_font (ks : List Nat) (s : State) : (ks.foldl storeReg s).font = s.font := by
  rw [storeRegs_eq]

@[simp] theorem loadRegs_font (ks : List Nat) (s : State) : (ks.foldl loadReg s).font = s.font := by
  rw [loadRegs_eq]

@[simp] theorem keyPoll_font (s : State) (r : Reg) : (s.keyPoll r).font = s.font := by
  cases h : s.firstKey with
  | none => rw [keyPoll_none h]
  | some k => rw [keyPoll_some h, setKw_font, setReg_font]

@[simp] theorem endEvent_font (s : State) : s.endEvent.font = s.font := by rw [endEvent_eq]

/-! ### FONT through Tick, Reset and LoadROM -/

@[simp] theorem tick_font (s : State) : s.tick.font = s.font := rfl

@[simp] theorem doReset_font (s : State) : s.doReset.font = s.font := rfl

/-- A load of at most ROM_MAX bytes writes them from 0x200 upwards (70 R223). -/
theorem afterLoad_of_le {bytes : List Byte} (h : bytes.length ≤ romMax) (s : State) :
    s.afterLoad bytes = s.writeBytes progBase bytes := by
  simp [State.afterLoad, State.loadRom, h]

/-- A load of more than ROM_MAX bytes changes nothing (60 R202, 70 R223). -/
theorem afterLoad_of_not_le {bytes : List Byte} (h : ¬ bytes.length ≤ romMax) (s : State) : s.afterLoad bytes = s := by
  simp [State.afterLoad, State.loadRom, h]

@[simp] theorem afterLoad_font (s : State) (bytes : List Byte) : (s.afterLoad bytes).font = s.font := by
  by_cases h : bytes.length ≤ romMax
  · rw [afterLoad_of_le h, writeBytes_font]
  · rw [afterLoad_of_not_le h]

/-! ### What a Step and an event can do -/

/-- A Step with a key-wait pending is a key poll (40 R120, 44 R184). -/
theorem coreStep_wait {s : State} {r : Reg} (h : s.kw = some r) : coreStep s = .next (s.keyPoll r) := by
  simp [coreStep, h]

/-- A Step with no key-wait pending executes the word at pc on the state after the fetch (40 R120 to R122). -/
theorem coreStep_run {s : State} (h : s.kw = none) : coreStep s = exec (decodeWord s.fetchWord) s.advancePc := by
  simp [coreStep, h]

/-- A next state is reached by one of the four events, which is then over (00 R5, 70 R224). -/
theorem step_cases {s t : State} (h : step s = .next t) : ∃ u, t = u.endEvent ∧
    ((∃ keys rand, s.nextEvent = .step keys rand ∧ coreStep s = .next u) ∨
      (s.nextEvent = .tick ∧ u = s.tick) ∨
      (s.nextEvent = .reset ∧ u = s.doReset) ∨
      (∃ bytes, s.nextEvent = .loadRom bytes ∧ u = s.afterLoad bytes)) := by
  cases he : s.nextEvent with
  | step keys rand =>
    simp only [step, he] at h
    obtain ⟨u, hu, rfl⟩ := andThen_next.1 h
    exact ⟨u, rfl, .inl ⟨keys, rand, rfl, hu⟩⟩
  | tick =>
    simp only [step, he] at h
    cases h
    exact ⟨_, rfl, .inr (.inl ⟨rfl, rfl⟩)⟩
  | reset =>
    simp only [step, he] at h
    cases h
    exact ⟨_, rfl, .inr (.inr (.inl ⟨rfl, rfl⟩))⟩
  | loadRom bytes =>
    simp only [step, he] at h
    cases h
    exact ⟨_, rfl, .inr (.inr (.inr ⟨bytes, rfl, rfl⟩))⟩

end Sys2Proof.Machine
end

section
/-!
SUPPORT. FONT is a constant of the machine (00_scope.md R6, 10_state.md R40): by instruction, by Step, by event.
-/

namespace Sys2Proof.Machine

theorem execRet_font {ign : Nibble} {s t : State} (h : execRet ign s = .next t) : t.font = s.font := by
  unfold execRet at h
  split at h
  · rename_i hp
    cases h
    rw [setPc_font, pop_font hp]
  · cases h
    rfl

/-- No instruction writes FONT. Only a loop, a stack operation or a skip needs its own lemma; every other meaning is a few
writes to other fields. -/
theorem exec_font {i : Instr} {s t : State} (h : exec i s = .next t) : t.font = s.font := by
  cases i with
  | ret ign => exact execRet_font (ign := ign) h
  | call nnn => cases h; rw [setPc_font, push_font]
  | seImm | sneImm | seReg | sneReg | skp | sknp => cases h; exact skipIf_font _ _
  | drw x y n => cases h; rw [drawRows_font, setReg_font]
  | stM x => cases h; exact storeRegs_font _ _
  | ldM x => cases h; exact loadRegs_font _ _
  | cls | jp | jpV0 | ldImm | addImm | ldReg | orReg | andReg | xorReg | addReg | sub | shr | subn | shl | ldI | rnd | ldVdt
  | ldK | ldDtv | ldStv | addI | ldF | ldB | nop0 | nop8 | nopE | nopF => cases h; rfl

/-- Neither a key poll nor an instruction writes FONT. -/
theorem coreStep_font {s t : State} (h : coreStep s = .next t) : t.font = s.font := by
  cases hk : s.kw with
  | none =>
    rw [coreStep_run hk] at h
    rw [exec_font h, advancePc_font]
  | some r =>
    rw [coreStep_wait hk] at h
    cases h
    exact keyPoll_font s r

/-- Settles O59: each of the four events keeps FONT, and so does the end of an event. -/
theorem fontNeverChanges : Obligations.FontNeverChanges := by
  intro s t h
  obtain ⟨u, rfl, ⟨_, _, _, hu⟩ | ⟨_, rfl⟩ | ⟨_, rfl⟩ | ⟨bytes, _, rfl⟩⟩ := step_cases h
  · rw [endEvent_font, coreStep_font hu]
  · rw [endEvent_font, tick_font]
  · rw [endEvent_font, doReset_font]
  · rw [endEvent_font, afterLoad_font]

end Sys2Proof.Machine
end

section
/-!
SUPPORT. What an executed instruction can do to the state, said once for all 38: which fields each kind of instruction can
write and what is known of the values (10_state.md sections 1 to 8). The frames and the invariant are read off it.
-/

namespace Sys2Proof.Machine

/-! ### The shared operations an effect is made of -/

/-- A push touches the stack and its count only. -/
theorem push_eq (s : State) (v : Word) : s.push v = { s with stack := (s.push v).stack, sp := (s.push v).sp } := by
  by_cases h : s.sp.val < 16
  · rw [push_room h]
  · rw [push_full h]

/-- The load loop changes no register but those it names. -/
theorem loadRegs_reg {q : Reg} {ks : List Nat} (h : ∀ k ∈ ks, q ≠ BitVec.ofNat 4 k) (s : State) :
    (ks.foldl loadReg s).reg q = s.reg q := by
  induction ks generalizing s with
  | nil => rfl
  | cons k l ih =>
    rw [List.forall_mem_cons] at h
    rw [List.foldl_cons, ih h.2, loadReg, reg_setReg, if_neg h.1]

/-! ### The effect of an instruction -/

/-- The six instructions that may skip the next one (40 R126 to R129, 44 R180, R181). -/
inductive IsSkip : Instr → Prop
  | seImm (x : Reg) (kk : Byte) : IsSkip (.seImm x kk)
  | sneImm (x : Reg) (kk : Byte) : IsSkip (.sneImm x kk)
  | seReg (x y : Reg) (ign : Nibble) : IsSkip (.seReg x y ign)
  | sneReg (x y : Reg) (ign : Nibble) : IsSkip (.sneReg x y ign)
  | skp (x : Reg) : IsSkip (.skp x)
  | sknp (x : Reg) : IsSkip (.sknp x)

/-- The three instructions that write I (10 R26). -/
inductive WritesI : Instr → Prop
  | ldI (nnn : Addr) : WritesI (.ldI nnn)
  | addI (x : Reg) : WritesI (.addI x)
  | ldF (x : Reg) : WritesI (.ldF x)

/-- The two instructions that write memory (10 R33). -/
inductive IsStore : Instr → Prop
  | ldB (x : Reg) : IsStore (.ldB x)
  | stM (x : Reg) : IsStore (.stM x)

/-- The states an instruction can leave `s` in, by the fields it can write. -/
inductive Effect (s : State) : Instr → State → Prop
  | none {i : Instr} : Effect s i s
  | regs {i : Instr} (regs : Vector Byte 16)
      (hregs : ∀ r, ¬ WritesReg i r → ({ s with regs := regs } : State).reg r = s.reg r) :
      Effect s i { s with regs := regs }
  | cls {ign : Nibble} (fb : Framebuffer) : Effect s (.cls ign) { s with fb := fb }
  | drw {x y : Reg} {n : Nibble} (regs : Vector Byte 16) (fb : Framebuffer)
      (hregs : ∀ r, r ≠ flagReg → ({ s with regs := regs } : State).reg r = s.reg r) :
      Effect s (.drw x y n) { s with regs := regs, fb := fb }
  | ret {ign : Nibble} (sp : Fin 17) (k : Fin 16) : Effect s (.ret ign) { s with sp := sp, pc := s.stack[k] }
  | call {nnn : Addr} (stack : Vector Word 16) (sp : Fin 17)
      (hstack : ∀ k : Fin 16, stack[k] = s.stack[k] ∨ stack[k] = s.pc) :
      Effect s (.call nnn) { s with stack := stack, sp := sp, pc := zextAddr nnn }
  | jp {nnn : Addr} : Effect s (.jp nnn) { s with pc := zextAddr nnn }
  | jpV0 {nnn : Addr} : Effect s (.jpV0 nnn) { s with pc := s.indirectTarget nnn }
  | skip {i : Instr} (hi : IsSkip i) (c : Bool) : Effect s i { s with pc := if c then nextPc s.pc else s.pc }
  | index {i : Instr} (hi : WritesI i) (v : Word) : Effect s i { s with I := v }
  | ldDtv {x : Reg} (v : Byte) : Effect s (.ldDtv x) { s with dt := v }
  | ldStv {x : Reg} (v : Byte) : Effect s (.ldStv x) { s with st := v }
  | ldK {x : Reg} (v : Option Reg) : Effect s (.ldK x) { s with kw := v }
  | store {i : Instr} (hi : IsStore i) (mem : Memory) (hmem : s.mem.wf s.font = true → mem.wf s.font = true) :
      Effect s i { s with mem := mem }

theorem setReg_effect {i : Instr} {x : Reg} (h : WritesReg i x) (s : State) (v : Byte) : Effect s i (s.setReg x v) := by
  refine .regs _ fun r hr => (reg_setReg s x v r).trans ?_
  have hx : r ≠ x := by rintro rfl; exact hr h
  rw [if_neg hx]

theorem writeResultAndFlag_effect {i : Instr} {x : Reg} (h : ∀ r, r = x ∨ r = flagReg → WritesReg i r) (s : State)
    (result flag : Byte) : Effect s i (s.writeResultAndFlag x result flag) := by
  refine .regs _ fun r hr => (writeResultAndFlag_reg s x result flag r).trans ?_
  have hx : r ≠ x := fun e => hr (h r (.inl e))
  have hf : r ≠ flagReg := fun e => hr (h r (.inr e))
  rw [if_neg hf, if_neg hx]

theorem skipIf_effect {i : Instr} (h : IsSkip i) (s : State) (c : Bool) : Effect s i (s.skipIf c) := by
  rw [skipIf_eq]
  exact .skip h c

theorem execRet_effect {ign : Nibble} {s t : State} (h : execRet ign s = .next t) : Effect s (.ret ign) t := by
  by_cases hsp : 0 < s.sp.val
  · rw [execRet, pop_top hsp] at h
    cases h
    exact .ret _ ⟨s.sp.val - 1, by omega⟩
  · rw [execRet, pop_empty hsp] at h
    cases h
    exact .none

theorem call_effect (nnn : Addr) (s : State) : Effect s (.call nnn) ((s.push s.pc).setPc (zextAddr nnn)) := by
  rw [push_eq]
  exact .call _ _ (push_slot s s.pc)

theorem drawRows_effect (x y : Reg) (n : Nibble) (rows : List Nat) (s : State) :
    Effect s (.drw x y n) (rows.foldl (drawRow s x y) (s.setReg flagReg 0)) := by
  have hreg : ∀ r, r ≠ flagReg → (rows.foldl (drawRow s x y) (s.setReg flagReg 0)).reg r = s.reg r := by
    intro r hr
    rw [drawRows_reg _ _ _ _ hr, reg_setReg, if_neg hr]
  rw [drawRows_eq]
  exact .drw _ _ hreg

theorem loadRegs_effect (x : Reg) (s : State) : Effect s (.ldM x) ((List.range (x.toNat + 1)).foldl loadReg s) := by
  have hreg : ∀ r, ¬ r.toNat ≤ x.toNat → ((List.range (x.toNat + 1)).foldl loadReg s).reg r = s.reg r := by
    intro r hr
    refine loadRegs_reg (fun k hk e => hr ?_) s
    have hkx := List.mem_range.1 hk
    have hmod := Nat.mod_le k (2 ^ 4)
    rw [e, BitVec.toNat_ofNat]
    omega
  rw [loadRegs_eq]
  exact .regs _ hreg

theorem writeBytes_effect {i : Instr} (h : IsStore i) (s : State) (a : Nat) (bs : List Byte) :
    Effect s i (s.writeBytes a bs) := by
  have hmem := writeBytes_wf (bs := bs) (s := s) a
  rw [writeBytes_eq]
  exact .store h _ hmem

theorem storeRegs_effect (x : Reg) (ks : List Nat) (s : State) : Effect s (.stM x) (ks.foldl storeReg s) := by
  have hmem := storeRegs_wf ks s
  rw [storeRegs_eq]
  exact .store (.stM x) _ hmem

/-- An instruction's next state is one of its effects: the inversion lemma of `exec`, from which frames and invariants follow
with no look at the 38 meanings. -/
theorem exec_effect {i : Instr} {s t : State} (h : exec i s = .next t) : Effect s i t := by
  cases i with
  | cls ign => cases h; exact .cls _
  | ret ign => exact execRet_effect h
  | jp nnn => cases h; exact .jp
  | call nnn => cases h; exact call_effect nnn s
  | jpV0 nnn => cases h; exact .jpV0
  | seImm x kk => cases h; exact skipIf_effect (.seImm x kk) s _
  | sneImm x kk => cases h; exact skipIf_effect (.sneImm x kk) s _
  | seReg x y ign => cases h; exact skipIf_effect (.seReg x y ign) s _
  | sneReg x y ign => cases h; exact skipIf_effect (.sneReg x y ign) s _
  | skp x => cases h; exact skipIf_effect (.skp x) s _
  | sknp x => cases h; exact skipIf_effect (.sknp x) s _
  | ldImm x | addImm x | ldReg x | orReg x | andReg x | xorReg x | rnd x | ldVdt x => cases h; exact setReg_effect (by rfl) s _
  | addReg | sub | shr | subn | shl => cases h; exact writeResultAndFlag_effect (by exact fun _ hr => hr) s _ _
  | drw x y n => cases h; exact drawRows_effect x y n _ s
  | ldM x => cases h; exact loadRegs_effect x s
  | ldI nnn => cases h; exact .index (.ldI nnn) _
  | addI x => cases h; exact .index (.addI x) _
  | ldF x => cases h; exact .index (.ldF x) _
  | ldK => cases h; exact .ldK _
  | ldDtv => cases h; exact .ldDtv _
  | ldStv => cases h; exact .ldStv _
  | ldB x => cases h; exact writeBytes_effect (.ldB x) s _ _
  | stM x => cases h; exact storeRegs_effect x _ s
  | nop0 | nop8 | nopE | nopF => cases h; exact .none

end Sys2Proof.Machine
end

section
/-!
SUPPORT. pc, the stack slots and memory stay in range (10_state.md R23, R27; 20_memory.md R63): at reset, and through every
event.
-/

namespace Sys2Proof.Machine

/-- Every reset state is in range, whatever the font. -/
theorem resetWith_inv (f : Font) : (State.resetWith f).Inv :=
  ⟨by simp [State.resetWith], fun k => by simp [State.resetWith], wf_resetWith f⟩

theorem doReset_inv (s : State) : s.doReset.Inv := resetWith_inv s.font

theorem tick_inv {s : State} (h : s.Inv) : s.tick.Inv := h

theorem afterLoad_inv {s : State} (h : s.Inv) (bytes : List Byte) : (s.afterLoad bytes).Inv := by
  obtain ⟨hpc, hstack, hmem⟩ := h
  by_cases hl : bytes.length ≤ romMax
  · have hmem' := writeBytes_wf (bs := bytes) progBase hmem
    rw [afterLoad_of_le hl, writeBytes_eq]
    exact ⟨hpc, hstack, hmem'⟩
  · rw [afterLoad_of_not_le hl]
    exact ⟨hpc, hstack, hmem⟩

theorem endEvent_inv {s : State} (h : s.Inv) : s.endEvent.Inv := by
  rw [endEvent_eq]
  exact h

theorem keyPoll_inv {s : State} (h : s.Inv) (r : Reg) : (s.keyPoll r).Inv := by
  cases hk : s.firstKey with
  | none => rw [keyPoll_none hk]; exact h
  | some k => rw [keyPoll_some hk]; exact h

/-- The fetch leaves pc masked to 12 bits, whatever it was (10 R24). -/
theorem advancePc_inv {s : State} (h : s.Inv) : s.advancePc.Inv := ⟨nextPc_lt s.pc, h.2⟩

/-- No effect of an instruction leaves the range: every pc written is masked, a 12-bit immediate or a stack slot, and every
slot written is a pc. -/
theorem effect_inv {i : Instr} {s t : State} (h : Effect s i t) (hs : s.Inv) : t.Inv := by
  obtain ⟨hpc, hstack, hmem⟩ := hs
  cases h with
  | ret _ k => exact ⟨hstack k, hstack, hmem⟩
  | call _ _ hpush =>
    refine ⟨zextAddr_lt _, fun k => ?_, hmem⟩
    rcases hpush k with e | e <;> rw [e]
    · exact hstack k
    · exact hpc
  | jp => exact ⟨zextAddr_lt _, hstack, hmem⟩
  | jpV0 => exact ⟨mask12_lt _, hstack, hmem⟩
  | skip _ c =>
    refine ⟨?_, hstack, hmem⟩
    cases c
    · exact hpc
    · exact nextPc_lt s.pc
  | store _ _ hwf => exact ⟨hpc, hstack, hwf hmem⟩
  | none | regs | cls | drw | index | ldDtv | ldStv | ldK => exact ⟨hpc, hstack, hmem⟩

theorem coreStep_inv {s t : State} (h : coreStep s = .next t) (hs : s.Inv) : t.Inv := by
  cases hk : s.kw with
  | none =>
    rw [coreStep_run hk] at h
    exact effect_inv (exec_effect h) (advancePc_inv hs)
  | some r =>
    rw [coreStep_wait hk] at h
    cases h
    exact keyPoll_inv hs r

/-- Settles O13: each of the four events keeps the range, and so does the end of an event. -/
theorem everyStepKeepsStateInRange : Obligations.EveryStepKeepsStateInRange := by
  intro s t hs h
  obtain ⟨u, rfl, ⟨_, _, _, hu⟩ | ⟨_, rfl⟩ | ⟨_, rfl⟩ | ⟨bytes, _, rfl⟩⟩ := step_cases h
  · exact endEvent_inv (coreStep_inv hu hs)
  · exact endEvent_inv (tick_inv hs)
  · exact endEvent_inv (doReset_inv s)
  · exact endEvent_inv (afterLoad_inv hs bytes)

/-- Settles O14, with the default font. -/
theorem resetStateIsInRange : Obligations.ResetStateIsInRange := resetWith_inv defaultFont

end Sys2Proof.Machine
end

section
/-!
SUPPORT. Which instruction writes which part of the state (10_state.md sections 1 to 8), each read off `Effect`: an effect that
does not touch the part keeps it, and one that does belongs to an instruction the statement names.
-/

namespace Sys2Proof.Machine

/-- Settles O15: only CLS and DRW have an effect on the framebuffer. -/
theorem screenChangedOnlyByClearAndDraw : Obligations.ScreenChangedOnlyByClearAndDraw := by
  intro i s t h hcls hdrw idx
  cases exec_effect h with
  | cls => exact absurd rfl (hcls _)
  | drw => exact absurd rfl (hdrw _ _ _)
  | none | regs | ret | call | jp | jpV0 | skip | index | ldDtv | ldStv | ldK | store => rfl

/-- Settles O17: only CALL has an effect on the slots, only CALL and RET on SP. -/
theorem stackChangedOnlyByCallAndReturn : Obligations.StackChangedOnlyByCallAndReturn := by
  intro i s t h hcall
  cases exec_effect h with
  | call => exact absurd rfl (hcall _)
  | ret => exact ⟨rfl, fun hret => absurd rfl (hret _)⟩
  | none | regs | cls | drw | jp | jpV0 | skip | index | ldDtv | ldStv | ldK | store => exact ⟨rfl, fun _ => rfl⟩

/-- Settles O18: an effect on I belongs to one of its three writers. -/
theorem addressRegisterWrittenByThree : Obligations.AddressRegisterWrittenByThree := by
  intro i s t h hldI haddI hldF
  cases exec_effect h with
  | index hi =>
    cases hi with
    | ldI nnn => exact absurd rfl (hldI nnn)
    | addI x => exact absurd rfl (haddI x)
    | ldF x => exact absurd rfl (hldF x)
  | none | regs | cls | drw | ret | call | jp | jpV0 | skip | ldDtv | ldStv | ldK | store => rfl

/-- Settles O19: an effect on pc belongs to a jump, CALL, RET or a skip. -/
theorem pcChangedOnlyByControlTransfer : Obligations.PcChangedOnlyByControlTransfer := by
  intro i s t h hret hjp hcall hjpV0 hseImm hsneImm hseReg hsneReg hskp hsknp
  cases exec_effect h with
  | ret => exact absurd rfl (hret _)
  | jp => exact absurd rfl (hjp _)
  | call => exact absurd rfl (hcall _)
  | jpV0 => exact absurd rfl (hjpV0 _)
  | skip hi =>
    cases hi with
    | seImm x kk => exact absurd rfl (hseImm x kk)
    | sneImm x kk => exact absurd rfl (hsneImm x kk)
    | seReg x y ign => exact absurd rfl (hseReg x y ign)
    | sneReg x y ign => exact absurd rfl (hsneReg x y ign)
    | skp x => exact absurd rfl (hskp x)
    | sknp x => exact absurd rfl (hsknp x)
  | none | regs | cls | drw | index | ldDtv | ldStv | ldK | store => rfl

/-- Settles O20: each of DT, ST and KW is in the effect of one instruction, TONE in none. -/
theorem timersAndKeyWaitHaveOneWriterEach : Obligations.TimersAndKeyWaitHaveOneWriterEach := by
  intro i s t h
  cases exec_effect h with
  | ldDtv => exact ⟨fun hdt => absurd rfl (hdt _), fun _ => rfl, fun _ => rfl, rfl⟩
  | ldStv => exact ⟨fun _ => rfl, fun hst => absurd rfl (hst _), fun _ => rfl, rfl⟩
  | ldK => exact ⟨fun _ => rfl, fun _ => rfl, fun hkw => absurd rfl (hkw _), rfl⟩
  | none | regs | cls | drw | ret | call | jp | jpV0 | skip | index | store =>
    exact ⟨fun _ => rfl, fun _ => rfl, fun _ => rfl, rfl⟩

/-- Settles O21: the two effects on registers carry the frame of the general registers. -/
theorem registersHaveOnlyTheirNamedWriters : Obligations.RegistersHaveOnlyTheirNamedWriters := by
  intro i s t r h hr
  cases exec_effect h with
  | regs _ hregs => exact hregs r hr
  | drw _ _ hregs => exact hregs r hr
  | none | cls | ret | call | jp | jpV0 | skip | index | ldDtv | ldStv | ldK | store => rfl

end Sys2Proof.Machine
end

section
/-!
SUPPORT. What an instruction does not look at: the record of the surroundings (10_state.md R40), but for the three that read
an input, and bits 15..12 of I (R26). One move of the state changes both at once, I by a multiple of 4096, and all
operations but those that read an input or load I afresh commute with it.
-/

namespace Sys2Proof.Machine

/-- The state with `d` added to I and another record of the surroundings put in. -/
def State.moved (s : State) (d : Word) (script : List Event) (draws : Nat) : State :=
  { s with I := s.I + d, script := script, draws := draws }

section
variable (d : Word) (script : List Event) (draws : Nat)

/-! ### Operations that form no address from I and read no input -/

@[simp] theorem moved_reg (s : State) (r : Reg) : (s.moved d script draws).reg r = s.reg r := rfl

@[simp] theorem moved_pixel (s : State) (idx : Nat) : (s.moved d script draws).pixel idx = s.pixel idx := rfl

@[simp] theorem moved_readByte (s : State) (a : Nat) : (s.moved d script draws).readByte a = s.readByte a := rfl

@[simp] theorem setReg_moved (s : State) (r : Reg) (v : Byte) :
    (s.moved d script draws).setReg r v = (s.setReg r v).moved d script draws := rfl

@[simp] theorem skipIf_moved (s : State) (c : Bool) :
    (s.moved d script draws).skipIf c = (s.skipIf c).moved d script draws := by
  cases c <;> rfl

@[simp] theorem push_moved (s : State) (v : Word) :
    (s.moved d script draws).push v = (s.push v).moved d script draws := by
  by_cases h : s.sp.val < 16
  · rw [push_room h, push_room (s := s.moved d script draws) h]
    rfl
  · rw [push_full h, push_full (s := s.moved d script draws) h]

theorem execCall_moved (nnn : Addr) (s : State) :
    execCall nnn (s.moved d script draws) = andThen (execCall nnn s) fun t => t.moved d script draws := by
  rw [execCall, push_moved]
  rfl

theorem execRet_moved (ign : Nibble) (s : State) :
    execRet ign (s.moved d script draws) = andThen (execRet ign s) fun t => t.moved d script draws := by
  by_cases h : 0 < s.sp.val
  · rw [execRet, execRet, pop_top h, pop_top (s := s.moved d script draws) h]
    rfl
  · rw [execRet, execRet, pop_empty h, pop_empty (s := s.moved d script draws) h]
    rfl

/-- The two additions to I change places. -/
theorem setI_add_moved (s : State) (v : Word) :
    (s.moved d script draws).setI ((s.moved d script draws).I + v) = (s.setI (s.I + v)).moved d script draws := by
  simp [State.moved, State.setI, add_right_comm]

@[simp] theorem setPixel_moved (s : State) (idx : Nat) (b : Bool) :
    (s.moved d script draws).setPixel idx b = (s.setPixel idx b).moved d script draws := by
  unfold State.setPixel
  split <;> rfl

@[simp] theorem xorPixel_moved (s : State) (idx : Nat) (b : Bool) :
    (s.moved d script draws).xorPixel idx b = (s.xorPixel idx b).moved d script draws := by
  cases h : b && s.pixel idx <;> simp [State.xorPixel, h]

/-! ### Operations that form an address from I: the mask takes a multiple of 4096 away (20 R61) -/

variable {d} (hd : d.toNat % 4096 = 0)
include hd

theorem cellOf_dataAddress_moved (s : State) (k : Nat) :
    cellOf ((s.moved d script draws).dataAddress k) = cellOf (s.dataAddress k) := by
  simp only [cellOf, memBytes, State.dataAddress, State.moved, BitVec.toNat_add]
  omega

theorem readByte_dataAddress_moved (s : State) (k : Nat) :
    s.readByte ((s.moved d script draws).dataAddress k) = s.readByte (s.dataAddress k) := by
  rw [State.readByte, cellOf_dataAddress_moved script draws hd, State.readByte]

theorem writeByte_dataAddress_moved (s : State) (k : Nat) (v : Byte) :
    (s.moved d script draws).writeByte ((s.moved d script draws).dataAddress k) v =
      (s.writeByte (s.dataAddress k) v).moved d script draws := by
  rw [State.writeByte, cellOf_dataAddress_moved script draws hd]
  rfl

theorem storeReg_moved (s : State) (k : Nat) :
    storeReg (s.moved d script draws) k = (storeReg s k).moved d script draws :=
  writeByte_dataAddress_moved script draws hd s k _

theorem loadReg_moved (s : State) (k : Nat) :
    loadReg (s.moved d script draws) k = (loadReg s k).moved d script draws := by
  simp [loadReg, readByte_dataAddress_moved script draws hd]

theorem drawRow_moved (before : State) (x y : Reg) (s : State) (row : Nat) :
    drawRow (before.moved d script draws) x y (s.moved d script draws) row =
      (drawRow before x y s row).moved d script draws := by
  unfold drawRow
  rw [moved_readByte, readByte_dataAddress_moved script draws hd]
  exact List.foldl_hom (fun t => State.moved t d script draws) fun t _ => xorPixel_moved d script draws t _ _

theorem writeBytes_dataAddress_moved (bs : List Byte) (s : State) (k : Nat) :
    (s.moved d script draws).writeBytes ((s.moved d script draws).dataAddress k) bs =
      (s.writeBytes (s.dataAddress k) bs).moved d script draws := by
  induction bs generalizing s k with
  | nil => rfl
  | cons b bs ih =>
    rw [State.writeBytes, writeByte_dataAddress_moved script draws hd]
    exact ih (s.writeByte (s.dataAddress k) b) (k + 1)

theorem storeRegs_moved (ks : List Nat) (s : State) :
    ks.foldl storeReg (s.moved d script draws) = (ks.foldl storeReg s).moved d script draws :=
  List.foldl_hom (fun t => State.moved t d script draws) (storeReg_moved script draws hd)

theorem loadRegs_moved (ks : List Nat) (s : State) :
    ks.foldl loadReg (s.moved d script draws) = (ks.foldl loadReg s).moved d script draws :=
  List.foldl_hom (fun t => State.moved t d script draws) (loadReg_moved script draws hd)

theorem drawRows_moved (before : State) (x y : Reg) (rows : List Nat) (s : State) :
    rows.foldl (drawRow (before.moved d script draws) x y) (s.moved d script draws) =
      (rows.foldl (drawRow before x y) s).moved d script draws :=
  List.foldl_hom (fun t => State.moved t d script draws) (drawRow_moved script draws hd before x y)

end

/-! ### Every instruction -/

/-- The instructions that use an input of the surroundings (44 R180, R181, 42 R161). -/
inductive ReadsInput : Instr → Prop
  | skp (x : Reg) : ReadsInput (.skp x)
  | sknp (x : Reg) : ReadsInput (.sknp x)
  | rnd (x : Reg) (kk : Byte) : ReadsInput (.rnd x kk)

/-- The instructions whose I does not come from the I before (42 R160, R163). -/
inductive LoadsI : Instr → Prop
  | ldI (nnn : Addr) : LoadsI (.ldI nnn)
  | ldF (x : Reg) : LoadsI (.ldF x)

/-- An instruction that does not load I afresh commutes with a move of I by a multiple of 4096, ADD.I because addition does; an
instruction that reads an input needs the same record of the surroundings on both sides. -/
theorem exec_moved {d : Word} (hd : d.toNat % 4096 = 0) {i : Instr} (hI : ¬ LoadsI i) {s : State} {script : List Event}
    {draws : Nat} (hin : ReadsInput i → script = s.script ∧ draws = s.draws) :
    exec i (s.moved d script draws) = andThen (exec i s) fun t => t.moved d script draws := by
  cases i with
  | ldI nnn => exact absurd (.ldI nnn) hI
  | ldF x => exact absurd (.ldF x) hI
  | rnd x kk => obtain ⟨rfl, rfl⟩ := hin (.rnd x kk); rfl
  | skp x => obtain ⟨rfl, rfl⟩ := hin (.skp x); exact congrArg _ (skipIf_moved ..)
  | sknp x => obtain ⟨rfl, rfl⟩ := hin (.sknp x); exact congrArg _ (skipIf_moved ..)
  | seImm | sneImm | seReg | sneReg => exact congrArg _ (skipIf_moved ..)
  | ret ign => exact execRet_moved d script draws ign s
  | call nnn => exact execCall_moved d script draws nnn s
  | addI x => exact congrArg _ (setI_add_moved d script draws s (zextByte (s.reg x)))
  | drw x y n => exact congrArg _ (drawRows_moved script draws hd s x y _ (s.setReg flagReg 0))
  | ldB x => exact congrArg _ (writeBytes_dataAddress_moved script draws hd _ s 0)
  | stM x => exact congrArg _ (storeRegs_moved script draws hd _ s)
  | ldM x => exact congrArg _ (loadRegs_moved script draws hd _ s)
  | cls | jp | jpV0 | ldImm | addImm | ldReg | orReg | andReg | xorReg | addReg | sub | shr | subn | shl | ldVdt | ldK
  | ldDtv | ldStv | nop0 | nop8 | nopE | nopF => rfl

/-- No instruction moves the surroundings on. -/
theorem exec_surroundings {i : Instr} {s t : State} (h : exec i s = .next t) : t.script = s.script ∧ t.draws = s.draws := by
  cases exec_effect h <;> exact ⟨rfl, rfl⟩

theorem moved_zero (s : State) (script : List Event) (draws : Nat) :
    s.moved 0 script draws = { s with script := script, draws := draws } := by
  simp [State.moved]

/-- Settles O23: another I with the same low 12 bits is I moved by a multiple of 4096. -/
theorem upperAddressBitsAreUnobservable : Obligations.UpperAddressBitsAreUnobservable := by
  intro i s t v hv h
  by_cases hI : LoadsI i
  · cases hI <;> cases h <;> exact ⟨_, rfl, rfl⟩
  · have hd : (v - s.I).toNat % 4096 = 0 := by rw [BitVec.toNat_sub]; omega
    have hs : { s with I := v } = s.moved (v - s.I) s.script s.draws := by
      simp [State.moved]
    obtain ⟨hscript, hdraws⟩ := exec_surroundings h
    refine ⟨t.I + (v - s.I), by rw [BitVec.toNat_add]; omega, ?_⟩
    rw [hs, exec_moved hd hI fun _ => ⟨rfl, rfl⟩, h, ← hscript, ← hdraws]
    rfl

/-- Settles O22: another record of the surroundings is the move of I by 0. -/
theorem onlyThreeInstructionsReadInputs : Obligations.OnlyThreeInstructionsReadInputs := by
  intro i s script draws hskp hsknp hrnd
  by_cases hI : LoadsI i
  · cases hI <;> rfl
  · have hin : ¬ ReadsInput i := by
      rintro (x | x | ⟨x, kk⟩)
      · exact hskp x rfl
      · exact hsknp x rfl
      · exact hrnd x kk rfl
    simpa only [moved_zero] using exec_moved (d := 0) rfl hI fun h => absurd h hin

end Sys2Proof.Machine
end

section
/-!
SUPPORT. What memory reads after Reset (10_state.md R42, 20_memory.md R69).
-/

namespace Sys2Proof.Machine

/-- Reset memory reads the font's bytes in its 80 cells and 0 elsewhere. -/
theorem resetByte_eq (f : Font) (a : Nat) :
    Memory.resetByte f a = if h : 0x50 ≤ a ∧ a < 0xA0 then f[a - 0x50]'(by omega) else 0 := by
  unfold Memory.resetByte fontBase
  by_cases hlo : 0x50 ≤ a
  · by_cases hhi : a < 0xA0
    · simp [hlo, hhi, show a - 80 < 80 by omega]
    · simp [hlo, hhi, show 80 ≤ a - 80 by omega]
  · simp [hlo]

/-- A 12-bit address is its own cell (20 R61). -/
theorem cellOf_addr (a : Addr) : cellOf a.toNat = a.toNat := Nat.mod_eq_of_lt a.isLt

/-- Settles O2: memory by `resetByte_eq`, the rest by the fields of the reset state. -/
theorem resetMemoryHoldsFontAndZero : Obligations.ResetMemoryHoldsFontAndZero := by
  refine ⟨fun f a => ?_, rfl, fun k => by simp [State.reset, State.resetWith], rfl⟩
  rw [State.readByte, cellOf_addr]
  exact resetByte_eq f a.toNat

end Sys2Proof.Machine
end

section
/-!
SUPPORT. Memory as the instructions and the fetch see it (20_memory.md): who writes it, how a word is read from it, and that the
fetch sees what ST.M stores.
-/

namespace Sys2Proof.Machine

/-- Settles O16: an effect on memory belongs to one of the two stores. -/
theorem memoryWrittenOnlyByStores : Obligations.MemoryWrittenOnlyByStores := by
  intro i s t h hldB hstM a
  cases exec_effect h with
  | store hi =>
    cases hi with
    | ldB x => exact absurd rfl (hldB x)
    | stM x => exact absurd rfl (hstM x)
  | none | regs | cls | drw | ret | call | jp | jpV0 | skip | index | ldDtv | ldStv | ldK => rfl

/-! ### Words (20 R61, R64) -/

/-- In a word read from memory the byte at the lower address is the most significant (20 R64). -/
theorem readWord_toNat (s : State) (a : Nat) :
    (s.readWord a).toNat = 256 * (s.readByte a).toNat + (s.readByte (a + 1)).toNat := by
  rw [State.readWord, toNat_concat]
  omega

/-- Addresses that name one cell read one byte (20 R61). -/
theorem readByte_congr (s : State) {a b : Nat} (h : cellOf a = cellOf b) : s.readByte a = s.readByte b := by
  rw [State.readByte, h, State.readByte]

/-- Settles O8: the fetch reads the word at pc, and adding 4096 to an address names the same cell. -/
theorem fetchIsBigEndianAndMasked : Obligations.FetchIsBigEndianAndMasked := fun s =>
  ⟨readWord_toNat s s.pc.toNat, fun a => readByte_congr s (Nat.add_mod_right a memBytes)⟩

/-! ### What ST.M leaves in memory (45 R191) -/

/-- The store loop writes the registers it names in sequence, each as it was before the loop. -/
theorem storeRegs_eq_writeBytes (n k : Nat) (s : State) :
    (List.range' k n).foldl storeReg s =
      s.writeBytes (s.dataAddress k) ((List.range' k n).map fun j => s.reg (BitVec.ofNat 4 j)) := by
  induction n generalizing k s with
  | zero => rfl
  | succ n ih =>
    rw [List.range'_succ, List.foldl_cons, ih, List.map_cons]
    rfl

/-- After ST.M the cell of I + R, for each register R up to X, reads the value of R. -/
theorem execStM_readByte {x r : Reg} {s t : State} (h : exec (.stM x) s = .next t) (hr : r.toNat ≤ x.toNat) {a : Nat}
    (ha : cellOf a = cellOf (s.dataAddress r.toNat)) : t.readByte a = s.reg r := by
  cases h
  rw [List.range_eq_range', storeRegs_eq_writeBytes]
  have hfits : ((List.range' 0 (x.toNat + 1)).map fun j => s.reg (BitVec.ofNat 4 j)).length ≤ memBytes := by
    have := x.isLt
    simp only [List.length_map, List.length_range', memBytes]
    omega
  rw [(readByte_writeBytes _ s (s.dataAddress 0) a hfits).1 r.toNat (by simpa using Nat.lt_succ_of_le hr) ha]
  simp

/-- Settles O52: the fetch reads the cells of I and I + 1, into which ST.M stored V0 and V1. -/
theorem storedWordIsFetchedNext : Obligations.StoredWordIsFetchedNext := by
  intro x s t hx h
  have hfetch : (t.setPc (mask12 s.I.toNat)).fetchWord = t.readWord (s.I.toNat % 4096) :=
    congrArg t.readWord (mask12_toNat s.I.toNat)
  have hcell (k : Nat) : cellOf (s.I.toNat % 4096 + k) = cellOf (s.dataAddress k) := Nat.mod_add_mod s.I.toNat memBytes k
  have h0 : t.readByte (s.I.toNat % 4096) = s.reg 0 := execStM_readByte h (Nat.zero_le _) (hcell 0)
  have h1 : t.readByte (s.I.toNat % 4096 + 1) = s.reg 1 := execStM_readByte (r := 1) h hx (hcell 1)
  rw [State.readWord, h0, h1] at hfetch
  exact hfetch

end Sys2Proof.Machine
end

section
/-!
SUPPORT. The decoder and the encoder are inverse to each other (30_encoding.md R91 to R98).
-/

namespace Sys2Proof

/-! ### A word from the fields its row fixes and those it leaves free (30 R92) -/

theorem wordA_eq_of_fields {w : Word} {p : Nibble} (hp : fieldP w = p) : wordA p (fieldNNN w) = w := by
  rw [← hp, wordA_fields]

theorem wordI_eq_of_fields {w : Word} {p : Nibble} {kk : Byte} (hp : fieldP w = p) (hkk : fieldKK w = kk) :
    wordI p (fieldX w) kk = w := by
  rw [← hp, ← hkk, wordI_fields]

theorem wordR_eq_of_fields {w : Word} {p n : Nibble} (hp : fieldP w = p) (hn : fieldN w = n) :
    wordR p (fieldX w) (fieldY w) n = w := by
  rw [← hp, ← hn, wordR_fields]

/-! ### When a no-op is well formed (30 R98) -/

theorem wellFormed_nop0 {bits : BitVec 12} :
    (Instr.nop0 bits).wellFormed = true ↔ fieldKK (wordA 0x0 bits) ∉ group0Selectors := by
  simp [Instr.wellFormed]

theorem wellFormed_nop8 {bits : BitVec 12} :
    (Instr.nop8 bits).wellFormed = true ↔ fieldN (wordA 0x8 bits) ∉ group8Selectors := by
  simp [Instr.wellFormed]

theorem wellFormed_nopE {bits : BitVec 12} :
    (Instr.nopE bits).wellFormed = true ↔ fieldKK (wordA 0xE bits) ∉ groupESelectors := by
  simp [Instr.wellFormed]

theorem wellFormed_nopF {bits : BitVec 12} :
    (Instr.nopF bits).wellFormed = true ↔ fieldKK (wordA 0xF bits) ∉ groupFSelectors := by
  simp [Instr.wellFormed]

/-! ### A selector that names no behaviour decodes to the group's no-op (30 R97, R98) -/

theorem decodeGroup0_of_notMem {w : Word} (h : fieldKK w ∉ group0Selectors) : decodeGroup0 w = .nop0 (fieldNNN w) := by
  unfold decodeGroup0
  split
  case h_3 => rfl
  all_goals next hkk => exact absurd (by simp [group0Selectors, ← BitVec.toNat_inj, hkk]) h

theorem decodeGroup8_of_notMem {w : Word} (h : fieldN w ∉ group8Selectors) : decodeGroup8 w = .nop8 (fieldNNN w) := by
  unfold decodeGroup8
  split
  case h_10 => rfl
  all_goals next hn => exact absurd (by simp [group8Selectors, ← BitVec.toNat_inj, hn]) h

theorem decodeGroupE_of_notMem {w : Word} (h : fieldKK w ∉ groupESelectors) : decodeGroupE w = .nopE (fieldNNN w) := by
  unfold decodeGroupE
  split
  case h_3 => rfl
  all_goals next hkk => exact absurd (by simp [groupESelectors, ← BitVec.toNat_inj, hkk]) h

theorem decodeGroupF_of_notMem {w : Word} (h : fieldKK w ∉ groupFSelectors) : decodeGroupF w = .nopF (fieldNNN w) := by
  unfold decodeGroupF
  split
  case h_10 => rfl
  all_goals next hkk => exact absurd (by simp [groupFSelectors, ← BitVec.toNat_inj, hkk]) h

/-! ### The four groups with a selector (30 R94) -/

theorem decodeWord_group0 {w : Word} (hp : fieldP w = 0x0) : decodeWord w = decodeGroup0 w := by
  rw [decodeWord, hp]; rfl

theorem decodeWord_group8 {w : Word} (hp : fieldP w = 0x8) : decodeWord w = decodeGroup8 w := by
  rw [decodeWord, hp]; rfl

theorem decodeWord_groupE {w : Word} (hp : fieldP w = 0xE) : decodeWord w = decodeGroupE w := by
  rw [decodeWord, hp]; rfl

theorem decodeWord_groupF {w : Word} (hp : fieldP w = 0xF) : decodeWord w = decodeGroupF w := by
  rw [decodeWord, hp]; rfl

/-! ### Decoding what the encoder builds -/

/-- The decoder finds the instruction in its word: the group from P, then the row from the group's selector. -/
theorem decodeWord_encode {i : Instr} (h : i.wellFormed = true) : decodeWord (encode i) = i := by
  cases i with
  | jp | call | ldI | jpV0 => simp [encode, decodeWord]
  | seImm | sneImm | ldImm | addImm | rnd => simp [encode, decodeWord]
  | seReg | sneReg | drw => simp [encode, decodeWord]
  | cls | ret => simp [encode, decodeWord, decodeGroup0]
  | ldReg | orReg | andReg | xorReg | addReg | sub | shr | subn | shl => simp [encode, decodeWord, decodeGroup8]
  | skp | sknp => simp [encode, decodeWord, decodeGroupE]
  | ldVdt | ldK | ldDtv | ldStv | addI | ldF | ldB | stM | ldM => simp [encode, decodeWord, decodeGroupF]
  | nop0 bits =>
    rw [encode, decodeWord_group0 (fieldP_wordA _ bits), decodeGroup0_of_notMem (wellFormed_nop0.1 h), fieldNNN_wordA]
  | nop8 bits =>
    rw [encode, decodeWord_group8 (fieldP_wordA _ bits), decodeGroup8_of_notMem (wellFormed_nop8.1 h), fieldNNN_wordA]
  | nopE bits =>
    rw [encode, decodeWord_groupE (fieldP_wordA _ bits), decodeGroupE_of_notMem (wellFormed_nopE.1 h), fieldNNN_wordA]
  | nopF bits =>
    rw [encode, decodeWord_groupF (fieldP_wordA _ bits), decodeGroupF_of_notMem (wellFormed_nopF.1 h), fieldNNN_wordA]

/-- The byte decoder reads one word, high byte first, and leaves the bytes after it (20 R64, 30 R90). -/
theorem decode_wordBytes_append (w : Word) (rest : List Byte) :
    decode (wordBytes w ++ rest) = .ok (decodeWord w, rest) := by
  rw [wordBytes, List.cons_append, List.singleton_append, decode, word_of_bytes]

/-- Settles O54: the bytes give the word back, and the word the instruction. -/
theorem decodeInvertsEncode : Obligations.DecodeInvertsEncode := by
  intro i rest h
  rw [encodeBytes, decode_wordBytes_append, decodeWord_encode h]

/-! ### Encoding what the decoder answers -/

theorem decodeGroup0_encodes {w : Word} (hp : fieldP w = 0x0) :
    (decodeGroup0 w).wellFormed = true ∧ encode (decodeGroup0 w) = w := by
  by_cases h : fieldKK w ∈ group0Selectors
  · simp only [group0Selectors, List.mem_cons, List.not_mem_nil, or_false] at h
    rcases h with h | h
    all_goals
      rw [decodeGroup0, h]
      exact ⟨rfl, wordI_eq_of_fields hp h⟩
  · rw [decodeGroup0_of_notMem h, wellFormed_nop0, wordA_eq_of_fields hp]
    exact ⟨h, wordA_eq_of_fields hp⟩

theorem decodeGroup8_encodes {w : Word} (hp : fieldP w = 0x8) :
    (decodeGroup8 w).wellFormed = true ∧ encode (decodeGroup8 w) = w := by
  by_cases h : fieldN w ∈ group8Selectors
  · simp only [group8Selectors, List.mem_cons, List.not_mem_nil, or_false] at h
    rcases h with h | h | h | h | h | h | h | h | h
    all_goals
      rw [decodeGroup8, h]
      exact ⟨rfl, wordR_eq_of_fields hp h⟩
  · rw [decodeGroup8_of_notMem h, wellFormed_nop8, wordA_eq_of_fields hp]
    exact ⟨h, wordA_eq_of_fields hp⟩

theorem decodeGroupE_encodes {w : Word} (hp : fieldP w = 0xE) :
    (decodeGroupE w).wellFormed = true ∧ encode (decodeGroupE w) = w := by
  by_cases h : fieldKK w ∈ groupESelectors
  · simp only [groupESelectors, List.mem_cons, List.not_mem_nil, or_false] at h
    rcases h with h | h
    all_goals
      rw [decodeGroupE, h]
      exact ⟨rfl, wordI_eq_of_fields hp h⟩
  · rw [decodeGroupE_of_notMem h, wellFormed_nopE, wordA_eq_of_fields hp]
    exact ⟨h, wordA_eq_of_fields hp⟩

theorem decodeGroupF_encodes {w : Word} (hp : fieldP w = 0xF) :
    (decodeGroupF w).wellFormed = true ∧ encode (decodeGroupF w) = w := by
  by_cases h : fieldKK w ∈ groupFSelectors
  · simp only [groupFSelectors, List.mem_cons, List.not_mem_nil, or_false] at h
    rcases h with h | h | h | h | h | h | h | h | h
    all_goals
      rw [decodeGroupF, h]
      exact ⟨rfl, wordI_eq_of_fields hp h⟩
  · rw [decodeGroupF_of_notMem h, wellFormed_nopF, wordA_eq_of_fields hp]
    exact ⟨h, wordA_eq_of_fields hp⟩

/-- Settles O55: in each of the sixteen groups the decoded row's fixed fields are the word's. -/
theorem encodeInvertsDecode : Obligations.EncodeInvertsDecode := by
  intro w
  unfold decodeWord
  split
  case h_1 h => exact decodeGroup0_encodes (BitVec.eq_of_toNat_eq h)
  case h_9 h => exact decodeGroup8_encodes (BitVec.eq_of_toNat_eq h)
  case h_15 h => exact decodeGroupE_encodes (BitVec.eq_of_toNat_eq h)
  case h_16 =>
    have hlt := (fieldP w).isLt
    have hp : (fieldP w).toNat = 15 := by grind
    exact decodeGroupF_encodes (BitVec.eq_of_toNat_eq hp)
  case h_2 h | h_3 h | h_11 h | h_12 h => exact ⟨rfl, wordA_eq_of_fields (BitVec.eq_of_toNat_eq h)⟩
  case h_4 h | h_5 h | h_7 h | h_8 h | h_13 h => exact ⟨rfl, wordI_eq_of_fields (BitVec.eq_of_toNat_eq h) rfl⟩
  case h_6 h | h_10 h | h_14 h => exact ⟨rfl, wordR_eq_of_fields (BitVec.eq_of_toNat_eq h) rfl⟩

end Sys2Proof
end

section
/-!
SUPPORT. The decoder follows the opcode map (30_encoding.md R95, R97): rows that give a behaviour are disjoint, so are the
no-op rows, and a behaviour row that overlaps a no-op row asks for a selector that no well-formed no-op has.
-/

namespace Sys2Proof

/-- Every row of the opcode map but the four no-ops, which are tried after these (30 R95). -/
def behaviourRows : List OpcodeRow := opcodeRowsLow ++ opcodeRowsAlu ++ opcodeRowsHigh

theorem opcodeRows_eq : opcodeRows = behaviourRows ++ opcodeRowsNop := rfl

theorem OpcodeRow.matches_iff {r : OpcodeRow} {w : Word} : r.matches w = true ↔ w &&& r.mask = r.pattern := beq_iff_eq

/-! ### Which rows can match one word -/

/-- Whether two rows agree on the bits that both fix. -/
def OpcodeRow.overlaps (r r' : OpcodeRow) : Bool := r.pattern &&& r'.mask == r'.pattern &&& r.mask

theorem overlaps_of_matches {r r' : OpcodeRow} {w : Word} (h : r.matches w = true) (h' : r'.matches w = true) :
    r.overlaps r' = true := by
  rw [OpcodeRow.overlaps, beq_iff_eq, ← OpcodeRow.matches_iff.1 h, ← OpcodeRow.matches_iff.1 h', BitVec.and_assoc,
    BitVec.and_assoc, BitVec.and_comm r.mask]

theorem behaviourRows_disjoint : ∀ r ∈ behaviourRows, ∀ r' ∈ behaviourRows, r.overlaps r' = true → r = r' := by decide

theorem opcodeRowsNop_disjoint : ∀ r ∈ opcodeRowsNop, ∀ r' ∈ opcodeRowsNop, r.overlaps r' = true → r = r' := by decide

/-- A behaviour row over the words of NOP.0 selects by KK, with a selector of group 0. -/
theorem selector_of_overlaps_nop0 : ∀ r ∈ behaviourRows, r.overlaps ⟨"NOP.0", 0x0000, 0xF000⟩ = true →
    r.mask = 0xF0FF ∧ fieldKK r.pattern ∈ group0Selectors := by decide

/-- A behaviour row over the words of NOP.8 selects by N, with a selector of group 8. -/
theorem selector_of_overlaps_nop8 : ∀ r ∈ behaviourRows, r.overlaps ⟨"NOP.8", 0x8000, 0xF000⟩ = true →
    r.mask = 0xF00F ∧ fieldN r.pattern ∈ group8Selectors := by decide

/-- A behaviour row over the words of NOP.E selects by KK, with a selector of group E. -/
theorem selector_of_overlaps_nopE : ∀ r ∈ behaviourRows, r.overlaps ⟨"NOP.E", 0xE000, 0xF000⟩ = true →
    r.mask = 0xF0FF ∧ fieldKK r.pattern ∈ groupESelectors := by decide

/-- A behaviour row over the words of NOP.F selects by KK, with a selector of group F. -/
theorem selector_of_overlaps_nopF : ∀ r ∈ behaviourRows, r.overlaps ⟨"NOP.F", 0xF000, 0xF000⟩ = true →
    r.mask = 0xF0FF ∧ fieldKK r.pattern ∈ groupFSelectors := by decide

/-- A row that fixes KK fixes it as the word has it. -/
theorem fieldKK_pattern {r : OpcodeRow} {w : Word} (hmask : r.mask = 0xF0FF) (h : r.matches w = true) :
    fieldKK r.pattern = fieldKK w := by
  rw [← OpcodeRow.matches_iff.1 h, hmask, ← wordI_fields w, and_byteMask, fieldKK_wordI, fieldKK_wordI]

/-- A row that fixes N fixes it as the word has it. -/
theorem fieldN_pattern {r : OpcodeRow} {w : Word} (hmask : r.mask = 0xF00F) (h : r.matches w = true) :
    fieldN r.pattern = fieldN w := by
  rw [← OpcodeRow.matches_iff.1 h, hmask, ← wordR_fields w, and_nibbleMask, fieldN_wordR, fieldN_wordR]

/-! ### No behaviour row matches a well-formed no-op -/

theorem wordA_matches_groupRow (name : String) (p : Nibble) (bits : BitVec 12) :
    (OpcodeRow.mk name (wordA p 0) 0xF000).matches (wordA p bits) = true :=
  OpcodeRow.matches_iff.2 (and_groupMask_A p bits)

/-- The case shared by groups 0, E and F: a word whose KK is none of the group's selectors matches no row that has one. -/
theorem not_matches_of_fieldKK {sel : List Byte} {r : OpcodeRow} {w : Word} (hw : fieldKK w ∉ sel)
    (hsel : r.matches w = true → r.mask = 0xF0FF ∧ fieldKK r.pattern ∈ sel) : ¬ r.matches w = true := by
  intro h
  obtain ⟨hmask, hmem⟩ := hsel h
  exact hw (fieldKK_pattern hmask h ▸ hmem)

theorem not_matches_of_fieldN {sel : List Nibble} {r : OpcodeRow} {w : Word} (hw : fieldN w ∉ sel)
    (hsel : r.matches w = true → r.mask = 0xF00F ∧ fieldN r.pattern ∈ sel) : ¬ r.matches w = true := by
  intro h
  obtain ⟨hmask, hmem⟩ := hsel h
  exact hw (fieldN_pattern hmask h ▸ hmem)

/-- The word of a well-formed instruction that bears a no-op row's name matches no behaviour row (30 R98). -/
theorem not_matches_encode_nop {i : Instr} {r r' : OpcodeRow} (hi : i.wellFormed = true) (hr : r ∈ opcodeRowsNop)
    (hname : r.mnemonic = i.mnemonic) (hr' : r' ∈ behaviourRows) : ¬ r'.matches (encode i) = true := by
  cases i with
  | nop0 bits =>
    exact not_matches_of_fieldKK (wellFormed_nop0.1 hi) fun h =>
      selector_of_overlaps_nop0 r' hr' (overlaps_of_matches h (wordA_matches_groupRow "NOP.0" 0x0 bits))
  | nop8 bits =>
    exact not_matches_of_fieldN (wellFormed_nop8.1 hi) fun h =>
      selector_of_overlaps_nop8 r' hr' (overlaps_of_matches h (wordA_matches_groupRow "NOP.8" 0x8 bits))
  | nopE bits =>
    exact not_matches_of_fieldKK (wellFormed_nopE.1 hi) fun h =>
      selector_of_overlaps_nopE r' hr' (overlaps_of_matches h (wordA_matches_groupRow "NOP.E" 0xE bits))
  | nopF bits =>
    exact not_matches_of_fieldKK (wellFormed_nopF.1 hi) fun h =>
      selector_of_overlaps_nopF r' hr' (overlaps_of_matches h (wordA_matches_groupRow "NOP.F" 0xF bits))
  | _ =>
    have hnop : r.mnemonic ∈ opcodeRowsNop.map OpcodeRow.mnemonic := List.mem_map_of_mem hr
    rw [hname] at hnop
    simp [Instr.mnemonic, opcodeRowsNop] at hnop

/-! ### The first row that matches -/

/-- The only element of a list with a property is the first one with it. -/
theorem find?_eq_some_of_unique {α : Type} {l : List α} {p : α → Bool} {a : α} (ha : a ∈ l) (hpa : p a = true)
    (huniq : ∀ b ∈ l, p b = true → b = a) : l.find? p = some a := by
  obtain ⟨b, hb⟩ := Option.isSome_iff_exists.1 (List.find?_isSome.2 ⟨a, ha, hpa⟩)
  rw [hb, huniq b (List.mem_of_find?_eq_some hb) (List.find?_some hb)]

theorem firstRow_of_behaviourRow {r : OpcodeRow} {w : Word} (hr : r ∈ behaviourRows) (h : r.matches w = true) :
    firstRow w = some r := by
  have hfind : behaviourRows.find? (fun r => r.matches w) = some r :=
    find?_eq_some_of_unique hr h fun r' hr' h' => behaviourRows_disjoint r' hr' r hr (overlaps_of_matches h' h)
  rw [firstRow, opcodeRows_eq, List.find?_append, hfind, Option.some_or]

theorem firstRow_of_nopRow {r : OpcodeRow} {w : Word} (hr : r ∈ opcodeRowsNop) (h : r.matches w = true)
    (hnone : ∀ r' ∈ behaviourRows, ¬ r'.matches w = true) : firstRow w = some r := by
  have hfind : opcodeRowsNop.find? (fun r => r.matches w) = some r :=
    find?_eq_some_of_unique hr h fun r' hr' h' => opcodeRowsNop_disjoint r' hr' r hr (overlaps_of_matches h' h)
  rw [firstRow, opcodeRows_eq, List.find?_append, List.find?_eq_none.2 hnone, Option.none_or, hfind]

/-- The encoded word has the fixed bits of the instruction's own row, for every instruction. -/
theorem exists_row_matches_encode (i : Instr) : Laws.RowBits.Statement i := by
  cases i with
  | cls ign => exact Laws.RowBits.cls ign
  | ret ign => exact Laws.RowBits.ret ign
  | jp nnn => exact Laws.RowBits.jp nnn
  | call nnn => exact Laws.RowBits.call nnn
  | seImm x kk => exact Laws.RowBits.seImm x kk
  | sneImm x kk => exact Laws.RowBits.sneImm x kk
  | seReg x y ign => exact Laws.RowBits.seReg x y ign
  | ldImm x kk => exact Laws.RowBits.ldImm x kk
  | addImm x kk => exact Laws.RowBits.addImm x kk
  | ldReg x y => exact Laws.RowBits.ldReg x y
  | orReg x y => exact Laws.RowBits.orReg x y
  | andReg x y => exact Laws.RowBits.andReg x y
  | xorReg x y => exact Laws.RowBits.xorReg x y
  | addReg x y => exact Laws.RowBits.addReg x y
  | sub x y => exact Laws.RowBits.sub x y
  | shr x y => exact Laws.RowBits.shr x y
  | subn x y => exact Laws.RowBits.subn x y
  | shl x y => exact Laws.RowBits.shl x y
  | sneReg x y ign => exact Laws.RowBits.sneReg x y ign
  | ldI nnn => exact Laws.RowBits.ldI nnn
  | jpV0 nnn => exact Laws.RowBits.jpV0 nnn
  | rnd x kk => exact Laws.RowBits.rnd x kk
  | drw x y n => exact Laws.RowBits.drw x y n
  | skp x => exact Laws.RowBits.skp x
  | sknp x => exact Laws.RowBits.sknp x
  | ldVdt x => exact Laws.RowBits.ldVdt x
  | ldK x => exact Laws.RowBits.ldK x
  | ldDtv x => exact Laws.RowBits.ldDtv x
  | ldStv x => exact Laws.RowBits.ldStv x
  | addI x => exact Laws.RowBits.addI x
  | ldF x => exact Laws.RowBits.ldF x
  | ldB x => exact Laws.RowBits.ldB x
  | stM x => exact Laws.RowBits.stM x
  | ldM x => exact Laws.RowBits.ldM x
  | nop0 bits => exact Laws.RowBits.nop0 bits
  | nop8 bits => exact Laws.RowBits.nop8 bits
  | nopE bits => exact Laws.RowBits.nopE bits
  | nopF bits => exact Laws.RowBits.nopF bits

/-- The first row that a well-formed instruction's word matches is the instruction's own. -/
theorem firstRow_encode {i : Instr} (hi : i.wellFormed = true) :
    ∃ r, firstRow (encode i) = some r ∧ r.mnemonic = i.mnemonic := by
  obtain ⟨r, hr, hname, hmatch⟩ := exists_row_matches_encode i
  rw [opcodeRows_eq, List.mem_append] at hr
  rcases hr with hr | hr
  · exact ⟨r, firstRow_of_behaviourRow hr hmatch, hname⟩
  · exact ⟨r, firstRow_of_nopRow hr hmatch fun r' => not_matches_encode_nop hi hr hname, hname⟩

/-- Settles O56: a word is the encoding of a well-formed instruction, the one it decodes to. -/
theorem decoderFollowsTheOpcodeMap : Obligations.DecoderFollowsTheOpcodeMap := by
  intro w
  obtain ⟨hwf, henc⟩ := encodeInvertsDecode w
  simpa only [henc] using firstRow_encode hwf

/-- Settles O57: each word evaluates to its row. -/
theorem writtenOutWordsDecode : Obligations.WrittenOutWordsDecode := by
  unfold Obligations.WrittenOutWordsDecode
  decide

end Sys2Proof
end

section
/-!
SUPPORT. How a Step runs (40_step_and_flow.md section 1): `step` on a Step event, the word its two bytes decode to, the end of
the event, and the timers through the whole of it.
-/

namespace Sys2Proof.Machine

/-- A Step event is the Step and then its end (40 R120, 00 R5). -/
theorem step_of_stepEvent {s : State} {keys : BitVec 16} {rand : Byte} (h : s.nextEvent = .step keys rand) :
    step s = andThen (coreStep s) State.endEvent := by
  simp only [step, h]

/-- The two bytes at pc decode to the instruction the Step executes (40 R121). -/
theorem decode_fetched (s : State) :
    decode [s.readByte s.pc.toNat, s.readByte (s.pc.toNat + 1)] = .ok (decodeWord s.fetchWord, []) := rfl

/-- The end of an event, with the record it leaves written out. -/
theorem endEvent_eq_eventOver (s : State) :
    s.endEvent = { s with script := s.script.tail, draws := if s.script = [] then s.draws + 1 else s.draws } := by
  obtain ⟨hscript, hdraws⟩ := endEvent_eventOver s
  rw [endEvent_eq, hscript, hdraws]

/-- Settles O7: a Step with no key-wait pending executes the word its two bytes decode to. -/
theorem stepRunsDecodedInstruction : Obligations.StepRunsDecodedInstruction := by
  refine ⟨fun s keys rand i hevent hkw hdecode _ => ?_, endEvent_eq_eventOver⟩
  rw [decode_fetched] at hdecode
  cases hdecode
  rw [step_of_stepEvent hevent, coreStep_run hkw]
  rfl

/-- A key poll touches registers and KW only (44 R184). -/
theorem keyPoll_eq (s : State) (r : Reg) :
    s.keyPoll r = { s with regs := (s.keyPoll r).regs, kw := (s.keyPoll r).kw } := by
  cases h : s.firstKey with
  | none => rw [keyPoll_none h]
  | some k => rw [keyPoll_some h]; rfl

/-- DT and ST through a Step: a key poll leaves both, and the executed instruction changes one only if it is its writer
(10 R28, R29, R31). -/
theorem coreStep_timers {s t : State} (h : coreStep s = .next t) :
    ((s.kw ≠ none ∨ ∀ x, decodeWord s.fetchWord ≠ .ldDtv x) → t.dt = s.dt) ∧
    ((s.kw ≠ none ∨ ∀ x, decodeWord s.fetchWord ≠ .ldStv x) → t.st = s.st) ∧ t.tone = s.tone := by
  cases hkw : s.kw with
  | some r =>
    rw [coreStep_wait hkw, keyPoll_eq] at h
    cases h
    exact ⟨fun _ => rfl, fun _ => rfl, rfl⟩
  | none =>
    rw [coreStep_run hkw] at h
    obtain ⟨hdt, hst, -, htone⟩ := timersAndKeyWaitHaveOneWriterEach _ _ _ h
    exact ⟨fun hw => hdt (hw.resolve_left (absurd rfl)), fun hw => hst (hw.resolve_left (absurd rfl)), htone⟩

/-- Settles O11: the Step keeps the timers and TONE so, and the end of the event touches none of them. -/
theorem stepNeverCountsTimers : Obligations.StepNeverCountsTimers := by
  intro s t keys rand hevent h
  rw [step_of_stepEvent hevent] at h
  obtain ⟨u, hu, rfl⟩ := andThen_next.1 h
  have htimers := coreStep_timers hu
  rw [endEvent_eq]
  exact htimers

end Sys2Proof.Machine
end

section
/-!
SUPPORT. The frame `OnlyChanges`: how frames compose, and the frames of the operations on pc and on the stack.
-/

namespace Sys2Proof.Machine

theorem Part.same_trans {s t u : State} {p : Part} (h : p.same s t) (h' : p.same t u) : p.same s u := by
  cases p with
  | surroundings => exact ⟨h'.1.trans h.1, h'.2.trans h.2⟩
  | reg | pc | I | sp | slot | dt | st | kw | tone | byte | pixel | font => exact Eq.trans h' h

/-- Two transitions in a row change what either may change. -/
theorem OnlyChanges.trans {s t u : State} {may may' : Part → Prop} (h : OnlyChanges s t may) (h' : OnlyChanges t u may') :
    OnlyChanges s u (fun p => may' p ∨ may p) :=
  fun p hp => Part.same_trans (h p fun hm => hp (.inr hm)) (h' p fun hm => hp (.inl hm))

theorem setPc_onlyChanges (s : State) (v : Word) : OnlyChanges s (s.setPc v) (fun p => p = .pc) := by
  intro p hp
  cases p with
  | pc => exact absurd rfl hp
  | surroundings => exact ⟨rfl, rfl⟩
  | reg | I | sp | slot | dt | st | kw | tone | byte | pixel | font => rfl

theorem skipIf_onlyChanges (s : State) (c : Bool) : OnlyChanges s (s.skipIf c) (fun p => p = .pc) := by
  rw [skipIf_eq]
  exact setPc_onlyChanges s _

theorem setSp_onlyChanges (s : State) (n : Fin 17) : OnlyChanges s { s with sp := n } (fun p => p = .sp) := by
  intro p hp
  cases p with
  | sp => exact absurd rfl hp
  | surroundings => exact ⟨rfl, rfl⟩
  | reg | pc | I | slot | dt | st | kw | tone | byte | pixel | font => rfl

/-- A push that has room changes SP and the slot SP names (10 R27). -/
theorem push_onlyChanges {s : State} (h : s.sp.val < 16) (v : Word) :
    OnlyChanges s (s.push v) (fun p => p = .sp ∨ p = .slot ⟨s.sp.val, h⟩) := by
  rw [push_room h]
  intro p hp
  cases p with
  | sp => exact absurd (.inl rfl) hp
  | slot k =>
    have hk : s.sp.val ≠ k.val := fun e => hp (.inr (congrArg Part.slot (Fin.ext e.symm)))
    exact Vector.getElem_set_ne h k.isLt hk
  | surroundings => exact ⟨rfl, rfl⟩
  | reg | pc | I | dt | st | kw | tone | byte | pixel | font => rfl

end Sys2Proof.Machine
end

section
/-!
SUPPORT. Control transfer (40_step_and_flow.md sections 2 to 5): RET, JP, CALL, the four register skips and JP.V0, each from
what its one shared operation does to pc and to the stack.
-/

namespace Sys2Proof.Machine

/-! ### Jumps -/

/-- A 12-bit immediate is itself in 16 bits (30 R93). -/
theorem zextAddr_toNat (nnn : Addr) : (zextAddr nnn).toNat = nnn.toNat :=
  BitVec.toNat_setWidth_of_le (by decide)

/-- Settles O25: a jump writes its target to pc, and to nothing else. -/
theorem jumpSetsPcToTarget : Obligations.JumpSetsPcToTarget := fun nnn s =>
  ⟨s.setPc (zextAddr nnn), rfl, zextAddr_toNat nnn, setPc_onlyChanges s _⟩

/-- Settles O30: the indirect target is the sum masked to 12 bits. -/
theorem indirectJumpAddsV0AndMasks : Obligations.IndirectJumpAddsV0AndMasks := fun nnn s =>
  ⟨s.setPc (s.indirectTarget nnn), rfl, mask12_toNat _, setPc_onlyChanges s _⟩

/-! ### Skips -/

/-- Where a skip on equality leaves pc (40 R126, R128). -/
theorem skipIf_beq_pc (s : State) (a b : Byte) :
    (s.skipIf (a == b)).pc = if a = b then nextPc s.pc else s.pc := by
  rw [skipIf_eq, setPc_pc]
  by_cases h : a = b <;> simp [h]

/-- Where a skip on inequality leaves pc (40 R127, R129). -/
theorem skipIf_bne_pc (s : State) (a b : Byte) :
    (s.skipIf (a != b)).pc = if a = b then s.pc else nextPc s.pc := by
  rw [skipIf_eq, setPc_pc]
  by_cases h : a = b <;> simp [h]

/-- Settles O28: skips on VX against KK. -/
theorem immediateSkipsMovePcOnly : Obligations.ImmediateSkipsMovePcOnly := fun x kk s =>
  ⟨⟨_, rfl, skipIf_beq_pc s (s.reg x) kk, skipIf_onlyChanges s _⟩,
    ⟨_, rfl, skipIf_bne_pc s (s.reg x) kk, skipIf_onlyChanges s _⟩⟩

/-- Settles O29: skips on VX against VY; the ignored nibble is not read. -/
theorem registerSkipsMovePcOnly : Obligations.RegisterSkipsMovePcOnly := fun x y _ s =>
  ⟨⟨_, rfl, skipIf_beq_pc s (s.reg x) (s.reg y), skipIf_onlyChanges s _⟩,
    ⟨_, rfl, skipIf_bne_pc s (s.reg x) (s.reg y), skipIf_onlyChanges s _⟩⟩

/-! ### Call and return -/

/-- RET with a return address held: pop it into pc (40 R123). -/
theorem exec_ret_pop {s : State} (h : 0 < s.sp.val) (ign : Nibble) : exec (.ret ign) s =
    .next (({ s with sp := ⟨s.sp.val - 1, by omega⟩ } : State).setPc (s.stack[s.sp.val - 1]'(by omega))) := by
  change execRet ign s = _
  rw [execRet, pop_top h]

/-- RET with the stack empty does nothing (40 R123). -/
theorem exec_ret_empty {s : State} (h : ¬ 0 < s.sp.val) (ign : Nibble) : exec (.ret ign) s = .next s := by
  change execRet ign s = _
  rw [execRet, pop_empty h]

/-- Settles O24, by whether a return address is held. -/
theorem returnPopsOrFallsThrough : Obligations.ReturnPopsOrFallsThrough := fun g s =>
  ⟨fun h => ⟨_, exec_ret_pop h g, rfl, rfl, (setSp_onlyChanges s _).trans (setPc_onlyChanges _ _)⟩,
    fun h => exec_ret_empty (by omega) g⟩

/-- Settles O26: the push has room or does nothing, and the jump follows in either case. -/
theorem callPushesPostFetchPcAndJumps : Obligations.CallPushesPostFetchPcAndJumps := by
  intro nnn s
  refine ⟨(s.push s.pc).setPc (zextAddr nnn), rfl, zextAddr_toNat nnn, fun h => ⟨?_, ?_, ?_⟩, fun h => ?_⟩
  · simp [push_room h]
  · simp [push_room h]
  · exact (push_onlyChanges h s.pc).trans (setPc_onlyChanges _ _)
  · rw [push_full (by omega)]
    exact setPc_onlyChanges s _

/-- A value pushed where there is room is the one popped next; only its slot keeps a trace (10 R27). -/
theorem pop_push {s : State} (h : s.sp.val < 16) (v : Word) :
    (s.push v).pop = some (v, { s with stack := s.stack.set s.sp.val v h }) := by
  rw [push_room h, pop_top (Nat.succ_pos _)]
  simp

/-- Setting pc and pushing change places. -/
theorem push_setPc (s : State) (v p : Word) : (s.push v).setPc p = (s.setPc p).push v := by
  by_cases h : s.sp.val < 16
  · rw [push_room h, push_room (s := s.setPc p) h]
    rfl
  · rw [push_full h, push_full (s := s.setPc p) h]

/-- Settles O27: the pop takes what CALL pushed, or, the stack having been full, what the 16th call pushed. -/
theorem callThenReturnComesBack : Obligations.CallThenReturnComesBack := by
  intro nnn g s u p h
  cases h
  change ∃ t, execRet g ((s.push s.pc).setPc p) = .next t ∧ _
  rw [push_setPc, execRet]
  by_cases hsp : s.sp.val < 16
  · rw [pop_push (s := s.setPc p) hsp]
    exact ⟨_, rfl, fun _ => ⟨rfl, rfl⟩, fun h16 => by omega⟩
  · rw [push_full (s := s.setPc p) hsp, pop_top (s := s.setPc p) (by rw [setPc_sp]; omega)]
    exact ⟨_, rfl, fun hlt => absurd hlt hsp, fun h16 => by simp [h16]⟩

end Sys2Proof.Machine
end

section
/-!
SUPPORT. Immediate load and add and the register ALU group (41_load_alu.md): the frame of a register write and of a
result with its flag, each flag as a number, and from them the eleven instructions.
-/

namespace Sys2Proof.Machine

/-! ### The two writes the group is made of -/

theorem setReg_onlyChanges (s : State) (r : Reg) (v : Byte) : OnlyChanges s (s.setReg r v) (fun p => p = .reg r) := by
  intro p hp
  cases p with
  | reg q =>
    have hq : q ≠ r := fun e => hp (congrArg Part.reg e)
    exact (reg_setReg s r v q).trans (if_neg hq)
  | surroundings => exact ⟨rfl, rfl⟩
  | pc | I | sp | slot | dt | st | kw | tone | byte | pixel | font => rfl

/-- The result is written first, then the flag (41 R151, decision D4). -/
theorem writeResultAndFlag_onlyChanges (s : State) (r : Reg) (result flag : Byte) :
    OnlyChanges s (s.writeResultAndFlag r result flag) (fun p => p = .reg r ∨ p = .reg 15) :=
  fun p hp => (setReg_onlyChanges s r result).trans (setReg_onlyChanges _ flagReg flag) p fun h => hp h.symm

/-- The result stands in its register unless the flag lands there (41 R151). -/
theorem writeResultAndFlag_reg_result {r : Reg} (h : r ≠ flagReg) (s : State) (result flag : Byte) :
    (s.writeResultAndFlag r result flag).reg r = result := by
  rw [writeResultAndFlag_reg, if_neg h, if_pos rfl]

/-- The flag stands in VF, whatever register the result went to (41 R151). -/
theorem writeResultAndFlag_reg_flag (s : State) (r : Reg) (result flag : Byte) :
    (s.writeResultAndFlag r result flag).reg flagReg = flag := by
  rw [writeResultAndFlag_reg, if_pos rfl]

/-- What an instruction that ends in one register write answers: the shape of LD.i, ADD.i, LD.r, OR, AND and XOR. -/
theorem setReg_answer (s : State) (x : Reg) (v : Byte) :
    ∃ t, (.next (s.setReg x v) : Result) = .next t ∧ t.reg x = v ∧ OnlyChanges s t (fun p => p = .reg x) :=
  ⟨_, rfl, reg_setReg_self s x v, setReg_onlyChanges s x v⟩

/-- What an instruction that ends in a result and a flag answers, the two given as numbers (41 R151): the shape of
ADD.r, SUB, SHR, SUBN and SHL. -/
theorem writeResultAndFlag_answer (s : State) (x : Reg) {result flag : Byte} {m n : Nat} (hresult : result.toNat = m)
    (hflag : flag.toNat = n) :
    ∃ t, (.next (s.writeResultAndFlag x result flag) : Result) = .next t ∧ (x ≠ 15 → (t.reg x).toNat = m) ∧
      (t.reg 15).toNat = n ∧ OnlyChanges s t (fun p => p = .reg x ∨ p = .reg 15) :=
  ⟨_, rfl, fun hx => (congrArg BitVec.toNat (writeResultAndFlag_reg_result hx s result flag)).trans hresult,
    (congrArg BitVec.toNat (writeResultAndFlag_reg_flag s x result flag)).trans hflag,
    writeResultAndFlag_onlyChanges s x result flag⟩

/-! ### Flags and results as numbers -/

theorem flagByte_toNat (c : Bool) : (flagByte c).toNat = c.toNat := by cases c <;> rfl

theorem carryFlag_toNat (a b : Byte) : (carryFlag a b).toNat = if a.toNat + b.toNat > 255 then 1 else 0 := by
  rw [carryFlag, flagByte_toNat, Bool.toNat, Bool.cond_decide]

theorem greaterFlag_toNat (a b : Byte) : (greaterFlag a b).toNat = if a.toNat > b.toNat then 1 else 0 := by
  rw [greaterFlag, flagByte_toNat, Bool.toNat, Bool.cond_decide]

/-- The bit shifted out at the bottom is the value modulo 2 (41 R148). -/
theorem lowBitFlag_toNat (a : Byte) : (lowBitFlag a).toNat = a.toNat % 2 := by
  rw [lowBitFlag, flagByte_toNat, BitVec.getLsbD, Nat.toNat_testBit, Nat.pow_zero, Nat.div_one]

/-- The bit shifted out at the top is the value divided by 128 (41 R150). -/
theorem highBitFlag_toNat (a : Byte) : (highBitFlag a).toNat = a.toNat / 128 := by
  rw [highBitFlag, flagByte_toNat, BitVec.getLsbD, Nat.toNat_testBit]
  omega

/-- A difference modulo 256, written without a negative number (41 R147). -/
theorem toNat_sub_byte (a b : Byte) : (a - b).toNat = (a.toNat + 256 - b.toNat) % 256 := by
  rw [BitVec.toNat_sub]
  omega

theorem toNat_ushiftRight_one_byte (a : Byte) : (a >>> 1).toNat = a.toNat / 2 := BitVec.toNat_ushiftRight a 1

theorem toNat_shiftLeft_one_byte (a : Byte) : (a <<< 1).toNat = 2 * a.toNat % 256 := by
  rw [BitVec.toNat_shiftLeft, Nat.shiftLeft_eq, Nat.mul_comm]

/-! ### The words of a row fixed by its group alone (30 R95) -/

/-- The top nibble that a mask of the group keeps is P (30 R91). -/
theorem fieldP_of_and_groupMask {w : Word} {p : Nibble} (h : w &&& 0xF000 = wordA p 0) : fieldP w = p := by
  have hw := and_groupMask_A (fieldP w) (fieldNNN w)
  rw [wordA_fields, h] at hw
  simpa using congrArg fieldP hw.symm

theorem ldImm_encodes : Encodes 0x6000 0xF000 (fun w => .ldImm (fieldX w) (fieldKK w)) := by
  intro w h
  have hp : fieldP w = 0x6 := fieldP_of_and_groupMask h
  rw [decodeWord, hp]
  rfl

theorem addImm_encodes : Encodes 0x7000 0xF000 (fun w => .addImm (fieldX w) (fieldKK w)) := by
  intro w h
  have hp : fieldP w = 0x7 := fieldP_of_and_groupMask h
  rw [decodeWord, hp]
  rfl

/-! ### Instructions without a flag -/

/-- Settles O31: one register write each, and a sum in 8 bits is a sum modulo 256. -/
theorem immediateLoadAndAddWriteVx : Obligations.ImmediateLoadAndAddWriteVx := by
  refine ⟨ldImm_encodes, addImm_encodes, fun x kk s => ⟨setReg_answer s x kk, ?_⟩⟩
  obtain ⟨t, hexec, hx, hframe⟩ := setReg_answer s x (s.reg x + kk)
  exact ⟨t, hexec, by rw [hx, BitVec.toNat_add], hframe⟩

/-- Settles O32: each is one register write, VF like any other register (decision D6). -/
theorem copyAndLogicWriteVxWithoutFlag : Obligations.CopyAndLogicWriteVxWithoutFlag := fun x _ s =>
  ⟨setReg_answer s x _, setReg_answer s x _, setReg_answer s x _, setReg_answer s x _⟩

/-! ### Instructions with a flag -/

/-- Settles O33: a sum in 8 bits with its carry. -/
theorem addWritesSumAndCarry : Obligations.AddWritesSumAndCarry := fun x _ s =>
  writeResultAndFlag_answer s x (BitVec.toNat_add _ _) (carryFlag_toNat _ _)

/-- Settles O34: SUBN is SUB with the operands exchanged in difference and flag. -/
theorem subtractsWriteDifferenceAndStrictFlag : Obligations.SubtractsWriteDifferenceAndStrictFlag := fun x _ s =>
  ⟨writeResultAndFlag_answer s x (toNat_sub_byte _ _) (greaterFlag_toNat _ _),
    writeResultAndFlag_answer s x (toNat_sub_byte _ _) (greaterFlag_toNat _ _)⟩

/-- Settles O35: the operand is VX, whatever Y is (decision D5). -/
theorem shiftsMoveVxByOneAndKeepTheBit : Obligations.ShiftsMoveVxByOneAndKeepTheBit := fun x _ s =>
  ⟨writeResultAndFlag_answer s x (toNat_ushiftRight_one_byte _) (lowBitFlag_toNat _),
    writeResultAndFlag_answer s x (toNat_shiftLeft_one_byte _) (highBitFlag_toNat _)⟩

end Sys2Proof.Machine
end

section
/-!
SUPPORT. Address-register and random instructions (42_index_random.md): the frame of a write to I, the value each of the three
writers of I computes, and the random byte a Step offers.
-/

namespace Sys2Proof.Machine

/-! ### The address register -/

theorem setI_onlyChanges (s : State) (v : Word) : OnlyChanges s (s.setI v) (fun p => p = .I) := by
  intro p hp
  cases p with
  | I => exact absurd rfl hp
  | surroundings => exact ⟨rfl, rfl⟩
  | reg | pc | sp | slot | dt | st | kw | tone | byte | pixel | font => rfl

/-- What an instruction that ends in a write to I answers, the value given as a number: the shape of LD.I, ADD.I and LD.F. -/
theorem setI_answer (s : State) {v : Word} {n : Nat} (hv : v.toNat = n) :
    ∃ t, (.next (s.setI v) : Result) = .next t ∧ t.I.toNat = n ∧ OnlyChanges s t (fun p => p = .I) :=
  ⟨_, rfl, hv, setI_onlyChanges s v⟩

/-- A register value is itself in 16 bits (42 R162). -/
theorem zextByte_toNat (v : Byte) : (zextByte v).toNat = v.toNat := BitVec.toNat_setWidth_of_le (by decide)

/-- The low nibble is the value modulo 16 (42 R163). -/
theorem lowNibble_toNat (v : Byte) : (lowNibble v).toNat = v.toNat % 16 := BitVec.extractLsb'_toNat 0 4 v

/-- The last glyph starts at 0x50 + 75, so 16 bits hold every glyph's address (42 R163). -/
theorem glyphAddress_toNat (v : Byte) : (glyphAddress v).toNat = 0x50 + 5 * (v.toNat % 16) := by
  rw [glyphAddress, BitVec.toNat_ofNat, lowNibble_toNat, fontBase, glyphBytes]
  omega

/-- I and a register value are added modulo 65536 (42 R162, decision D10). -/
theorem add_zextByte_toNat (i : Word) (v : Byte) : (i + zextByte v).toNat = (i.toNat + v.toNat) % 65536 := by
  rw [BitVec.toNat_add, zextByte_toNat]

/-- Settles O36: one write to I each, of the immediate and of the glyph's address. -/
theorem addressRegisterLoads : Obligations.AddressRegisterLoads :=
  ⟨fun nnn s => setI_answer s (zextAddr_toNat nnn), fun x s => setI_answer s (glyphAddress_toNat (s.reg x))⟩

/-- Settles O37: one write to I, of the sum; no flag is among the parts changed (decision D10). -/
theorem addressRegisterAddWrapsWithoutFlag : Obligations.AddressRegisterAddWrapsWithoutFlag := fun x s =>
  setI_answer s (add_zextByte_toNat s.I (s.reg x))

/-! ### The random byte -/

/-- During a Step the random byte is the one it offers (60 R213, decision D14). -/
theorem randByte_of_stepEvent {s : State} {keys : BitVec 16} {rand : Byte} (h : s.nextEvent = .step keys rand) :
    s.randByte = rand := by
  simp only [State.randByte, h]

/-- A value under a mask has no bit outside it. -/
theorem and_mask_and_not_mask (a mask : Byte) : a &&& mask &&& ~~~mask = 0 := by
  rw [BitVec.and_assoc, BitVec.and_not_self]
  exact BitVec.and_zero

/-- Settles O38: one register write, of the random byte under the mask. -/
theorem randomIsTheOfferedByteUnderTheMask : Obligations.RandomIsTheOfferedByteUnderTheMask := by
  intro x kk s
  obtain ⟨t, hexec, hx, hframe⟩ := setReg_answer s x (s.randByte &&& kk)
  refine ⟨t, hexec, ?_, fun keys rand hevent => ?_, hframe⟩
  · rw [hx, and_mask_and_not_mask]
  · rw [hx, randByte_of_stepEvent hevent]

end Sys2Proof.Machine
end

section
/-!
SUPPORT. Display instructions (43_display.md): CLS, and DRW as one loop over the positions of its sprite. A segment of the
loop that reads the same coordinates throughout inverts each pixel it covers once; VF rises at the first lit pixel met and
stays up, so the coordinates change at most once.
-/

namespace Sys2Proof.Machine

/-! ### CLS (43 R170) -/

theorem clearScreen_onlyChanges (s : State) : OnlyChanges s s.clearScreen (fun p => ∃ idx, p = .pixel idx) := by
  intro p hp
  cases p with
  | pixel idx => exact absurd ⟨idx, rfl⟩ hp
  | surroundings => exact ⟨rfl, rfl⟩
  | reg | pc | I | sp | slot | dt | st | kw | tone | byte | font => rfl

/-- Settles O39: a cleared screen has no lit pixel, and no other field is written. -/
theorem clearScreenZeroesEveryPixel : Obligations.ClearScreenZeroesEveryPixel := fun _ s =>
  ⟨s.clearScreen, rfl, pixel_clearScreen s, clearScreen_onlyChanges s⟩

/-! ### Where sprite positions land (43 R171 (c), R173) -/

/-- Settles O44: 8 columns and 16 rows are fewer than the 64 by 32 of the wrap. -/
theorem spritePixelsNeverCoincide : Obligations.SpritePixelsNeverCoincide := by
  intro vx vy row bit row' bit' hrow hbit hrow' hbit' h
  unfold spriteCell fbIndex at h
  omega

theorem spritePixelAt_lt (vx vy : Byte) (k : Nat) : spritePixelAt vx vy k < 2048 := spriteCell_lt vx vy (k / 8) (k % 8)

/-- Positions of one sprite, 16 rows at most, land on different pixels. -/
theorem spritePixelAt_inj {vx vy : Byte} {j k : Nat} (hj : j < 128) (hk : k < 128)
    (h : spritePixelAt vx vy j = spritePixelAt vx vy k) : j = k := by
  obtain ⟨hrow, hbit⟩ := spritePixelsNeverCoincide vx vy (j / 8) (j % 8) (k / 8) (k % 8) (by omega) (by omega) (by omega)
    (by omega) h
  omega

/-- What a sprite of `n` rows covers is what its 8 * n positions cover. -/
theorem spriteCovers_iff (s : State) (vx vy : Byte) (n idx : Nat) :
    SpriteCovers s vx vy n idx ↔ SpriteCoversBetween s vx vy 0 (8 * n) idx := by
  constructor
  · rintro ⟨row, hrow, bit, hbit, hlit, hidx⟩
    have hdiv : (8 * row + bit) / 8 = row := by omega
    have hmod : (8 * row + bit) % 8 = bit := by omega
    refine ⟨8 * row + bit, by omega, by omega, ?_, ?_⟩
    · rwa [SpriteHasBit, hdiv, hmod]
    · rwa [spritePixelAt, hdiv, hmod]
  · rintro ⟨k, -, hk, hlit, hidx⟩
    exact ⟨k / 8, by omega, k % 8, by omega, hlit, hidx⟩

theorem spriteCoversBetween_self (s : State) (vx vy : Byte) (m idx : Nat) : ¬ SpriteCoversBetween s vx vy m m idx := by
  rintro ⟨k, hlo, hhi, -⟩
  omega

theorem spriteCoversBetween_succ {lo hi : Nat} (h : lo ≤ hi) (s : State) (vx vy : Byte) (idx : Nat) :
    SpriteCoversBetween s vx vy lo (hi + 1) idx ↔
      SpriteCoversBetween s vx vy lo hi idx ∨ (SpriteHasBit s hi ∧ idx = spritePixelAt vx vy hi) := by
  constructor
  · rintro ⟨k, hlo, hk, hbit, hidx⟩
    rcases Nat.lt_succ_iff_lt_or_eq.1 hk with hlt | rfl
    · exact .inl ⟨k, hlo, hlt, hbit, hidx⟩
    · exact .inr ⟨hbit, hidx⟩
  · rintro (⟨k, hlo, hk, hbit, hidx⟩ | ⟨hbit, hidx⟩)
    · exact ⟨k, hlo, by omega, hbit, hidx⟩
    · exact ⟨hi, h, by omega, hbit, hidx⟩

/-- No position lands where an earlier one did. -/
theorem not_spriteCoversBetween_spritePixelAt {hi : Nat} (h : hi < 128) (s : State) (vx vy : Byte) (lo : Nat) :
    ¬ SpriteCoversBetween s vx vy lo hi (spritePixelAt vx vy hi) := by
  rintro ⟨k, -, hk, -, hidx⟩
  have := spritePixelAt_inj h (by omega) hidx
  omega

/-! ### DRW as a loop over positions (43 R171) -/

/-- The turn of DRW's loops at position `k`: row `k / 8`, loop index `k % 8`. -/
def drawPosition (before : State) (x y : Reg) (t : State) (k : Nat) : State :=
  t.xorPixel (spritePixelAt (drawCoordinate x before t) (drawCoordinate y before t) k)
    (spriteBit (before.readByte (before.dataAddress (k / 8))) (k % 8))

theorem spriteBit_eq_true_iff (s : State) (k : Nat) :
    spriteBit (s.readByte (s.dataAddress (k / 8))) (k % 8) = true ↔ SpriteHasBit s k := Iff.rfl

/-- The state of DRW from `s` after its first `m` positions. -/
def drawnTo (s : State) (x y : Reg) (m : Nat) : State := (List.range m).foldl (drawPosition s x y) (s.setReg flagReg 0)

theorem drawnTo_zero (s : State) (x y : Reg) : drawnTo s x y 0 = s.setReg flagReg 0 := rfl

theorem drawnTo_succ (s : State) (x y : Reg) (m : Nat) :
    drawnTo s x y (m + 1) = drawPosition s x y (drawnTo s x y m) m := by
  simp [drawnTo, List.range_succ]

/-- Drawing touches registers and the framebuffer only. -/
theorem drawnTo_eq (s : State) (x y : Reg) (m : Nat) :
    drawnTo s x y m = { s with regs := (drawnTo s x y m).regs, fb := (drawnTo s x y m).fb } :=
  foldl_eq_of_regs_fb (drawPosition s x y) (fun t _ => xorPixel_eq t _ _) (List.range m) (s.setReg flagReg 0)

theorem drawnTo_readByte (s : State) (x y : Reg) (m a : Nat) : (drawnTo s x y m).readByte a = s.readByte a := by
  rw [drawnTo_eq]; rfl

theorem drawnTo_dataAddress (s : State) (x y : Reg) (m k : Nat) : (drawnTo s x y m).dataAddress k = s.dataAddress k := by
  rw [drawnTo_eq]; rfl

/-- Drawing changes no register but VF. -/
theorem drawnTo_reg (s : State) (x y : Reg) (m : Nat) {q : Reg} (h : q ≠ flagReg) : (drawnTo s x y m).reg q = s.reg q := by
  induction m with
  | zero => rw [drawnTo_zero, reg_setReg, if_neg h]
  | succ m ih => rw [drawnTo_succ, drawPosition, xorPixel_reg, if_neg fun hc => h hc.2, ih]

/-- One row is eight positions. -/
theorem drawRow_drawnTo (s : State) (x y : Reg) (row : Nat) :
    drawRow s x y (drawnTo s x y (8 * row)) row = drawnTo s x y (8 * row + 8) := by
  have hturn : ∀ t : State, ∀ bit ∈ List.range 8,
      drawPixel s x y (s.readByte (s.dataAddress row)) row t bit = drawPosition s x y t (8 * row + bit) := by
    intro t bit hbit
    have hbit8 := List.mem_range.1 hbit
    have hdiv : (8 * row + bit) / 8 = row := by omega
    have hmod : (8 * row + bit) % 8 = bit := by omega
    rw [drawPosition, spritePixelAt, hdiv, hmod]
    rfl
  rw [drawRow, drawnTo_readByte, drawnTo_dataAddress, List.foldl_ext _ _ _ hturn, drawnTo, drawnTo, List.range_add,
    List.foldl_append, List.foldl_map]

theorem drawRows_eq_drawnTo (s : State) (x y : Reg) (rows : Nat) :
    (List.range rows).foldl (drawRow s x y) (s.setReg flagReg 0) = drawnTo s x y (8 * rows) := by
  induction rows with
  | zero => rfl
  | succ rows ih => 
    rw [List.range_succ, List.foldl_append, ih, List.foldl_cons, List.foldl_nil, drawRow_drawnTo, Nat.mul_succ]

theorem exec_drw (x y : Reg) (n : Nibble) (s : State) : exec (.drw x y n) s = .next (drawnTo s x y (8 * n.toNat)) := by
  rw [← drawRows_eq_drawnTo]
  rfl

/-- The frame of drawing: VF, and the pixels that differ. -/
theorem drawnTo_onlyChanges {s : State} {x y : Reg} {m : Nat} {may : Part → Prop} (hflag : may (.reg 15))
    (hpixel : ∀ idx, ¬ may (.pixel idx) → (drawnTo s x y m).pixel idx = s.pixel idx) :
    OnlyChanges s (drawnTo s x y m) may := by
  intro p hp
  cases p with
  | reg q =>
    have hq : q ≠ flagReg := by rintro rfl; exact hp hflag
    exact drawnTo_reg s x y m hq
  | pixel idx => exact hpixel idx hp
  | surroundings => rw [drawnTo_eq]; exact ⟨rfl, rfl⟩
  | pc | I | sp | slot | dt | st | kw | tone | byte | font => rw [drawnTo_eq]; rfl

/-! ### The coordinates a position is drawn at (43 R171 (b), decision D8) -/

/-- What register `r` reads as a coordinate while VF is `v`. -/
def coordinateWithFlag (s : State) (r : Reg) (v : Byte) : Byte := if r = 15 then v else s.reg r

theorem coordinateWithFlag_of_ne {r : Reg} (h : r ≠ 15) (s : State) (v : Byte) : coordinateWithFlag s r v = s.reg r :=
  if_neg h

theorem drawCoordinate_drawnTo (s : State) (x y r : Reg) (m : Nat) :
    drawCoordinate r s (drawnTo s x y m) = coordinateWithFlag s r ((drawnTo s x y m).reg 15) := by
  unfold coordinateWithFlag
  split
  · rename_i hr; rw [hr]; rfl
  · rename_i hr; exact drawnTo_reg s x y m hr

/-- Position `k` is drawn at column `vx` and row `vy` of the sprite's corner. -/
def DrawnAt (s : State) (x y : Reg) (vx vy : Byte) (k : Nat) : Prop :=
  drawCoordinate x s (drawnTo s x y k) = vx ∧ drawCoordinate y s (drawnTo s x y k) = vy

theorem drawnAt_of_flag {s : State} {x y : Reg} {k : Nat} {v : Byte} (h : (drawnTo s x y k).reg 15 = v) :
    DrawnAt s x y (coordinateWithFlag s x v) (coordinateWithFlag s y v) k := by
  rw [← h]
  exact ⟨drawCoordinate_drawnTo s x y x k, drawCoordinate_drawnTo s x y y k⟩

/-- Coordinate registers other than VF read the same at every position. -/
theorem drawnAt_of_ne {x y : Reg} (hx : x ≠ 15) (hy : y ≠ 15) (s : State) (k : Nat) :
    DrawnAt s x y (s.reg x) (s.reg y) k :=
  ⟨drawnTo_reg s x y k hx, drawnTo_reg s x y k hy⟩

/-! ### Pixels -/

/-- Inverted on `a`, then on `b`: inverted on one of the two. -/
theorem inverted_twice {p q r a b : Prop} (hq : q ↔ ¬ (p ↔ a)) (hr : r ↔ ¬ (q ↔ b)) : r ↔ ¬ (p ↔ ¬ (a ↔ b)) := by
  tauto

theorem not_iff_iff_or_of_disjoint {a b : Prop} (h : ¬ (a ∧ b)) : ¬ (a ↔ b) ↔ a ∨ b := by
  rw [← xor_iff_not_iff, xor_iff_or_and_not_and, and_iff_left h]

/-- A pixel inverted on a condition that fails is unchanged. -/
theorem pixel_eq_of_not {s t : State} {idx : Nat} {c : Prop} (h : t.pixel idx = true ↔ ¬ (s.pixel idx = true ↔ c))
    (hc : ¬ c) : t.pixel idx = s.pixel idx := by
  rw [Bool.eq_iff_iff, h]
  simp [hc]

/-- Position `m` inverts its pixel when it has a 1 bit. -/
theorem pixel_drawnTo_succ {s : State} {x y : Reg} {vx vy : Byte} {m : Nat} (h : DrawnAt s x y vx vy m) (idx : Nat) :
    (drawnTo s x y (m + 1)).pixel idx = true ↔
      ¬ ((drawnTo s x y m).pixel idx = true ↔ SpriteHasBit s m ∧ idx = spritePixelAt vx vy m) := by
  obtain ⟨hvx, hvy⟩ := h
  rw [drawnTo_succ, drawPosition, hvx, hvy, xorPixel_pixel _ _ _ _ (spritePixelAt_lt vx vy m)]
  split
  · rename_i hidx
    rw [hidx, Bool.xor_iff_ne, ne_eq, Bool.eq_iff_iff, and_iff_left rfl, spriteBit_eq_true_iff]
  · rename_i hidx
    simp [hidx]

/-- A segment of the loop drawn at fixed coordinates inverts what it covers, each pixel once. -/
theorem pixel_drawnTo_segment {s : State} {x y : Reg} {vx vy : Byte} {lo hi : Nat} (hle : lo ≤ hi) (hhi : hi ≤ 128)
    (hat : ∀ k, lo ≤ k → k < hi → DrawnAt s x y vx vy k) (idx : Nat) :
    (drawnTo s x y hi).pixel idx = true ↔
      ¬ ((drawnTo s x y lo).pixel idx = true ↔ SpriteCoversBetween s vx vy lo hi idx) := by
  induction hi, hle using Nat.le_induction with
  | base => simp [spriteCoversBetween_self]
  | succ m hm ih =>
    have hprev := ih (by omega) fun k hk hkm => hat k hk (by omega)
    have hnew : ¬ (SpriteCoversBetween s vx vy lo m idx ∧ SpriteHasBit s m ∧ idx = spritePixelAt vx vy m) := by
      rintro ⟨hcov, -, rfl⟩
      exact not_spriteCoversBetween_spritePixelAt (by omega) s vx vy lo hcov
    rw [spriteCoversBetween_succ hm, ← not_iff_iff_or_of_disjoint hnew]
    exact inverted_twice hprev (pixel_drawnTo_succ (hat m hm (by omega)) idx)

theorem pixel_drawnTo {s : State} {x y : Reg} {vx vy : Byte} {m : Nat} (hm : m ≤ 128)
    (hat : ∀ k < m, DrawnAt s x y vx vy k) (idx : Nat) :
    (drawnTo s x y m).pixel idx = true ↔ ¬ (s.pixel idx = true ↔ SpriteCoversBetween s vx vy 0 m idx) := by
  rw [pixel_drawnTo_segment (Nat.zero_le m) hm (fun k _ hk => hat k hk), drawnTo_zero, setReg_pixel]

/-- Fixed coordinates up to a position: it finds its pixel as the instruction found it. -/
theorem pixel_drawnTo_at {s : State} {x y : Reg} {vx vy : Byte} {m : Nat} (hm : m < 128)
    (hat : ∀ k < m, DrawnAt s x y vx vy k) :
    (drawnTo s x y m).pixel (spritePixelAt vx vy m) = s.pixel (spritePixelAt vx vy m) := by
  rw [Bool.eq_iff_iff, pixel_drawnTo hm.le hat]
  simp [not_spriteCoversBetween_spritePixelAt hm]

/-! ### The flag -/

theorem drawnTo_flag_succ_of_collision {s : State} {x y : Reg} {vx vy : Byte} {m : Nat} (h : DrawnAt s x y vx vy m)
    (hbit : SpriteHasBit s m) (hlit : (drawnTo s x y m).pixel (spritePixelAt vx vy m) = true) :
    (drawnTo s x y (m + 1)).reg 15 = 1 := by
  obtain ⟨hvx, hvy⟩ := h
  have hcollision := Bool.and_eq_true_iff.2 ⟨hbit, hlit⟩
  rw [drawnTo_succ, drawPosition, hvx, hvy, xorPixel_reg]
  exact if_pos ⟨hcollision, rfl⟩

theorem drawnTo_flag_succ_of_no_collision {s : State} {x y : Reg} {vx vy : Byte} {m : Nat} (h : DrawnAt s x y vx vy m)
    (hdark : SpriteHasBit s m → (drawnTo s x y m).pixel (spritePixelAt vx vy m) = false) :
    (drawnTo s x y (m + 1)).reg 15 = (drawnTo s x y m).reg 15 := by
  obtain ⟨hvx, hvy⟩ := h
  rw [drawnTo_succ, drawPosition, hvx, hvy, xorPixel_reg]
  refine if_neg fun ⟨hcollision, _⟩ => ?_
  obtain ⟨hbit, hlit⟩ := Bool.and_eq_true_iff.1 hcollision
  exact absurd hlit (by simp [hdark hbit])

/-- A position raises VF or leaves it. -/
theorem drawnTo_flag_succ (s : State) (x y : Reg) (m : Nat) :
    (drawnTo s x y (m + 1)).reg 15 = 1 ∨ (drawnTo s x y (m + 1)).reg 15 = (drawnTo s x y m).reg 15 := by
  rw [drawnTo_succ, drawPosition, xorPixel_reg]
  exact ite_eq_or_eq _ _ _

theorem drawnTo_flag_zero_or_one (s : State) (x y : Reg) (m : Nat) :
    (drawnTo s x y m).reg 15 = 0 ∨ (drawnTo s x y m).reg 15 = 1 := by
  induction m with
  | zero => exact .inl (reg_setReg_self s flagReg 0)
  | succ m ih =>
    rcases drawnTo_flag_succ s x y m with h | h
    · exact .inr h
    · rwa [h]

/-- A raised VF stays up to the end of the sprite. -/
theorem drawnTo_flag_stays {s : State} {x y : Reg} {j m : Nat} (hle : j ≤ m) (h : (drawnTo s x y j).reg 15 = 1) :
    (drawnTo s x y m).reg 15 = 1 := by
  induction m, hle using Nat.le_induction with
  | base => exact h
  | succ m _ ih =>
    rcases drawnTo_flag_succ s x y m with h | h
    · exact h
    · rw [h, ih]

/-- A lit pixel met at fixed coordinates raises VF. -/
theorem drawnTo_flag_of_collision {s : State} {x y : Reg} {vx vy : Byte} {k m : Nat} (hk : k < m) (hm : m ≤ 128)
    (hat : ∀ j ≤ k, DrawnAt s x y vx vy j) (hbit : SpriteHasBit s k) (hlit : s.pixel (spritePixelAt vx vy k) = true) :
    (drawnTo s x y m).reg 15 = 1 := by
  have hfound := pixel_drawnTo_at (by omega) fun j hj => hat j (Nat.le_of_lt hj)
  exact drawnTo_flag_stays hk (drawnTo_flag_succ_of_collision (hat k le_rfl) hbit (hfound.trans hlit))

/-- VF stays down, and the coordinates as VF = 0 gives them, for as long as no lit pixel is met. -/
theorem drawnTo_flag_of_no_collision {s : State} {x y : Reg} {m : Nat} (hm : m ≤ 128)
    (hdark : ∀ k < m, SpriteHasBit s k →
      s.pixel (spritePixelAt (coordinateWithFlag s x 0) (coordinateWithFlag s y 0) k) = false) :
    (drawnTo s x y m).reg 15 = 0 := by
  induction m using Nat.strong_induction_on with
  | _ m ih =>
    have hflag : ∀ k < m, (drawnTo s x y k).reg 15 = 0 := fun k hk => ih k hk (by omega) fun j hj => hdark j (by omega)
    cases m with
    | zero => exact reg_setReg_self s flagReg 0
    | succ m =>
      have hfound := pixel_drawnTo_at (by omega) fun k hk => drawnAt_of_flag (hflag k (Nat.lt_succ_of_lt hk))
      have hlast := drawnAt_of_flag (hflag m m.lt_succ_self)
      rw [drawnTo_flag_succ_of_no_collision hlast fun hbit => hfound.trans (hdark m m.lt_succ_self hbit)]
      exact hflag m m.lt_succ_self

/-! ### Collisions -/

theorem spriteCollides_iff (s : State) (vx vy : Byte) (n : Nat) :
    SpriteCollides s vx vy n ↔ ∃ k < 8 * n, SpriteHasBit s k ∧ s.pixel (spritePixelAt vx vy k) = true := by
  simp only [SpriteCollides, spriteCovers_iff]
  constructor
  · rintro ⟨idx, ⟨k, -, hk, hbit, rfl⟩, hlit⟩
    exact ⟨k, hk, hbit, hlit⟩
  · rintro ⟨k, hk, hbit, hlit⟩
    exact ⟨_, ⟨k, Nat.zero_le k, hk, hbit, rfl⟩, hlit⟩

/-- A sprite that does not collide meets dark pixels only. -/
theorem dark_of_not_spriteCollides {s : State} {vx vy : Byte} {n k : Nat} (h : ¬ SpriteCollides s vx vy n) (hk : k < 8 * n)
    (hbit : SpriteHasBit s k) : s.pixel (spritePixelAt vx vy k) = false :=
  Bool.eq_false_of_not_eq_true fun hlit => h ((spriteCollides_iff s vx vy n).2 ⟨k, hk, hbit, hlit⟩)

/-! ### The instruction (43 R171, R172) -/

/-- A sprite has at most 15 rows (30 R92). -/
theorem positions_le (n : Nibble) : 8 * n.toNat ≤ 128 := by
  have := n.isLt
  omega

/-- Coordinate registers other than VF read the same throughout, so the whole sprite is one segment. -/
theorem pixel_drawnTo_of_ne {x y : Reg} (hx : x ≠ 15) (hy : y ≠ 15) (s : State) (n : Nibble) (idx : Nat) :
    (drawnTo s x y (8 * n.toNat)).pixel idx = true ↔
      ¬ (s.pixel idx = true ↔ SpriteCovers s (s.reg x) (s.reg y) n.toNat idx) := by
  rw [spriteCovers_iff]
  exact pixel_drawnTo (positions_le n) (fun k _ => drawnAt_of_ne hx hy s k) idx

/-- Settles O40: each covered pixel is inverted once, and the first lit one raises VF. -/
theorem drawXorsSpriteAndReportsCollision : Obligations.DrawXorsSpriteAndReportsCollision := by
  intro x y n s hx hy
  have hpixel := pixel_drawnTo_of_ne hx hy s n
  refine ⟨_, exec_drw x y n s, hpixel, fun hcollides => ?_, fun hfree => ?_, ?_⟩
  · obtain ⟨k, hk, hbit, hlit⟩ := (spriteCollides_iff _ _ _ _).1 hcollides
    exact drawnTo_flag_of_collision hk (positions_le n) (fun j _ => drawnAt_of_ne hx hy s j) hbit hlit
  · rw [← coordinateWithFlag_of_ne hx s 0, ← coordinateWithFlag_of_ne hy s 0] at hfree
    exact drawnTo_flag_of_no_collision (positions_le n) fun k hk => dark_of_not_spriteCollides hfree hk
  · exact drawnTo_onlyChanges (.inl rfl) fun idx hidx =>
      pixel_eq_of_not (hpixel idx) fun hcovers => hidx (.inr ⟨idx, rfl, hcovers⟩)

/-- Settles O41: VF stays down, so the whole sprite is one segment at the coordinates that VF = 0 gives. -/
theorem drawWithoutCollisionReadsClearedVf : Obligations.DrawWithoutCollisionReadsClearedVf := by
  rintro x y n s _ _ rfl rfl hfree
  have hflag : ∀ m ≤ 8 * n.toNat, (drawnTo s x y m).reg 15 = 0 := fun m hm =>
    drawnTo_flag_of_no_collision (hm.trans (positions_le n)) fun k hk => dark_of_not_spriteCollides hfree (by omega)
  have hpixel := fun idx => pixel_drawnTo (positions_le n) (fun k hk => drawnAt_of_flag (hflag k hk.le)) idx
  simp only [← spriteCovers_iff] at hpixel
  refine ⟨_, exec_drw x y n s, hflag _ le_rfl, fun idx => ?_, ?_⟩
  · have hdark : ¬ (s.pixel idx = true ∧ SpriteCovers s (coordinateWithFlag s x 0) (coordinateWithFlag s y 0) n.toNat idx) :=
      fun ⟨hlit, hcovers⟩ => hfree ⟨idx, hcovers, hlit⟩
    exact (hpixel idx).trans (not_iff_iff_or_of_disjoint hdark)
  · exact drawnTo_onlyChanges (.inl rfl) fun idx hidx =>
      pixel_eq_of_not (hpixel idx) fun hcovers => hidx (.inr ⟨idx, rfl, hcovers⟩)

/-- Settles O42: the frame of drawing, and with no rows VF is cleared and no position drawn. -/
theorem drawChangesFlagAndPixelsOnly : Obligations.DrawChangesFlagAndPixelsOnly := by
  intro x y n s
  refine ⟨_, exec_drw x y n s, drawnTo_flag_zero_or_one s x y _, ?_, ?_⟩
  · exact drawnTo_onlyChanges (.inl rfl) fun idx hidx => absurd (.inr ⟨idx, rfl⟩) hidx
  · rintro rfl
    exact ⟨reg_setReg_self s flagReg 0, setReg_onlyChanges s flagReg 0⟩

/-- Drawing changes neither I nor memory, so the sprite stays what it was. -/
theorem spriteCovers_drawnTo (s : State) (x y : Reg) (m : Nat) (vx vy : Byte) (n idx : Nat) :
    SpriteCovers (drawnTo s x y m) vx vy n idx ↔ SpriteCovers s vx vy n idx := by
  rw [drawnTo_eq]; rfl

/-- Settles O43: the second draw inverts what the first did, and finds lit what the first found dark. -/
theorem drawTwiceRestoresTheScreen : Obligations.DrawTwiceRestoresTheScreen := by
  intro x y n s t hx hy ht
  cases (exec_drw x y n s).symm.trans ht
  have hfirst := pixel_drawnTo_of_ne hx hy s n
  obtain ⟨u, hu, hsecond, hone, hzero, -⟩ := drawXorsSpriteAndReportsCollision x y n (drawnTo s x y (8 * n.toNat)) hx hy
  simp only [SpriteCollides, spriteCovers_drawnTo, drawnTo_reg s x y _ hx, drawnTo_reg s x y _ hy] at hsecond hone hzero
  refine ⟨u, hu, fun idx => ?_, ?_, ?_⟩
  · exact pixel_eq_of_not (inverted_twice (hfirst idx) (hsecond idx)) (not_not_intro Iff.rfl)
  · rintro ⟨idx, hcovers, hdark⟩
    exact hone ⟨idx, hcovers, (hfirst idx).2 (by simp [hcovers, hdark])⟩
  · refine fun hlit => hzero ?_
    rintro ⟨idx, hcovers, hrelit⟩
    exact (hfirst idx).1 hrelit (iff_of_true (hlit idx hcovers) hcovers)

/-- Settles O58: two segments, at the coordinates that VF = 0 gives up to the first collision and VF = 1 after it. -/
theorem drawAfterCollisionReadsRaisedVf : Obligations.DrawAfterCollisionReadsRaisedVf := by
  rintro x y n s _ _ _ _ first rfl rfl rfl rfl hfirst hbit hlit hdark
  have hn := positions_le n
  have hdown : ∀ k ≤ first, DrawnAt s x y (coordinateWithFlag s x 0) (coordinateWithFlag s y 0) k := fun k hk =>
    drawnAt_of_flag (drawnTo_flag_of_no_collision (by omega) fun j hj => hdark j (by omega))
  have hflag : ∀ m, first < m → m ≤ 128 → (drawnTo s x y m).reg 15 = 1 := fun m hfm hm =>
    drawnTo_flag_of_collision hfm hm hdown hbit hlit
  have hbefore := fun idx => pixel_drawnTo (m := first + 1) (by omega) (fun k hk => hdown k (by omega)) idx
  have hafter := fun idx => pixel_drawnTo_segment hfirst hn
    (fun k hk hkn => drawnAt_of_flag (hflag k hk (by omega))) idx
  have hpixel := fun idx => inverted_twice (hbefore idx) (hafter idx)
  refine ⟨_, exec_drw x y n s, hflag _ hfirst hn, hpixel, drawnTo_onlyChanges (.inl rfl) fun idx hidx => ?_⟩
  refine pixel_eq_of_not (hpixel idx) fun hone => hidx (.inr ⟨idx, rfl, ?_⟩)
  exact ((xor_iff_not_iff _ _).2 hone).or

end Sys2Proof.Machine
end

section
/-!
SUPPORT. Keypad and timers (44_keypad_timers.md): the frames of the single-field writes and of the end of an event, and from
them the timer instructions, Tick, the key skips, LD.K and the key poll.
-/

namespace Sys2Proof.Machine

/-! ### Frames -/

theorem OnlyChanges.mono {s t : State} {may may' : Part → Prop} (h : OnlyChanges s t may) (hle : ∀ p, may p → may' p) :
    OnlyChanges s t may' :=
  fun p hp => h p fun hm => hp (hle p hm)

theorem setDt_onlyChanges (s : State) (v : Byte) : OnlyChanges s (s.setDt v) (fun p => p = .dt) := by
  intro p hp
  cases p with
  | dt => exact absurd rfl hp
  | surroundings => exact ⟨rfl, rfl⟩
  | reg | pc | I | sp | slot | st | kw | tone | byte | pixel | font => rfl

theorem setSt_onlyChanges (s : State) (v : Byte) : OnlyChanges s (s.setSt v) (fun p => p = .st) := by
  intro p hp
  cases p with
  | st => exact absurd rfl hp
  | surroundings => exact ⟨rfl, rfl⟩
  | reg | pc | I | sp | slot | dt | kw | tone | byte | pixel | font => rfl

theorem setTone_onlyChanges (s : State) (v : Bool) : OnlyChanges s (s.setTone v) (fun p => p = .tone) := by
  intro p hp
  cases p with
  | tone => exact absurd rfl hp
  | surroundings => exact ⟨rfl, rfl⟩
  | reg | pc | I | sp | slot | dt | st | kw | byte | pixel | font => rfl

theorem setKw_onlyChanges (s : State) (v : Option Reg) : OnlyChanges s (s.setKw v) (fun p => p = .kw) := by
  intro p hp
  cases p with
  | kw => exact absurd rfl hp
  | surroundings => exact ⟨rfl, rfl⟩
  | reg | pc | I | sp | slot | dt | st | tone | byte | pixel | font => rfl

/-! ### The end of an event -/

theorem endEvent_onlyChanges (s : State) : OnlyChanges s s.endEvent (fun p => p = .surroundings) := by
  rw [endEvent_eq]
  intro p hp
  cases p with
  | surroundings => exact absurd rfl hp
  | reg | pc | I | sp | slot | dt | st | kw | tone | byte | pixel | font => rfl

@[simp] theorem endEvent_reg (s : State) (r : Reg) : s.endEvent.reg r = s.reg r := endEvent_onlyChanges s (.reg r) nofun

@[simp] theorem endEvent_dt (s : State) : s.endEvent.dt = s.dt := endEvent_onlyChanges s .dt nofun

@[simp] theorem endEvent_st (s : State) : s.endEvent.st = s.st := endEvent_onlyChanges s .st nofun

@[simp] theorem endEvent_kw (s : State) : s.endEvent.kw = s.kw := endEvent_onlyChanges s .kw nofun

@[simp] theorem endEvent_tone (s : State) : s.endEvent.tone = s.tone := endEvent_onlyChanges s .tone nofun

/-- A transition that leaves the record of the surroundings alone, followed by the end of the event, has moved the record on by
that one event (00 R5). -/
theorem OnlyChanges.eventOver_endEvent {s u : State} {may : Part → Prop} (h : OnlyChanges s u may)
    (hmay : ¬ may .surroundings) : EventOver s u.endEvent := by
  obtain ⟨hscript, hdraws⟩ : u.script = s.script ∧ u.draws = s.draws := h .surroundings hmay
  rw [EventOver, ← hscript, ← hdraws]
  exact endEvent_eventOver u

/-! ### Timers (44 R182, R185 to R187) -/

/-- Settles O46: one register write and two timer writes. -/
theorem timerInstructionsMoveOneByte : Obligations.TimerInstructionsMoveOneByte := fun x s =>
  ⟨setReg_answer s x s.dt, ⟨_, rfl, rfl, setDt_onlyChanges s (s.reg x)⟩,
    ⟨_, rfl, rfl, setSt_onlyChanges s (s.reg x)⟩⟩

/-- Natural subtraction stops at 0 as a timer does (44 R187). -/
theorem countDown_toNat (v : Byte) : (countDown v).toNat = v.toNat - 1 := by
  unfold countDown
  split <;> bv_omega

theorem step_of_tickEvent {s : State} (h : s.nextEvent = .tick) : step s = .next s.tick.endEvent := by
  simp only [step, h]

/-- A Tick is three single-field writes (44 R187). -/
theorem tick_onlyChanges (s : State) : OnlyChanges s s.tick (fun p => p = .tone ∨ p = .st ∨ p = .dt) :=
  ((setDt_onlyChanges s _).trans (setSt_onlyChanges _ _)).trans (setTone_onlyChanges _ _)

/-- Settles O4: the three writes of a Tick, and the end of the event, which touches none of the three fields. -/
theorem tickCountsTimersDownAndSetsTone : Obligations.TickCountsTimersDownAndSetsTone := by
  intro s hevent
  refine ⟨_, step_of_tickEvent hevent, ?_, ?_, ?_, (tick_onlyChanges s).eventOver_endEvent (by simp), ?_⟩
  · rw [endEvent_dt]
    exact countDown_toNat s.dt
  · rw [endEvent_st]
    exact countDown_toNat s.st
  · rw [endEvent_tone, endEvent_st]
    exact bne_iff_ne
  · refine ((tick_onlyChanges s).trans (endEvent_onlyChanges _)).mono ?_
    rintro p (h | h | h | h) <;> simp [h]

/-! ### The key sample of a Step (44 R188, decision D22) -/

theorem keyHeld_of_stepEvent {s : State} {keys : BitVec 16} {rand : Byte} (h : s.nextEvent = .step keys rand) (k : Nibble) :
    s.keyHeld k = keys.getLsbD k.toNat := by
  simp only [State.keyHeld, State.keys, h]

/-! ### Key skips (44 R180, R181) -/

theorem skipIf_pc (s : State) (c : Bool) : (s.skipIf c).pc = if c then nextPc s.pc else s.pc := by
  rw [skipIf_eq, setPc_pc]

theorem skipIf_not_pc (s : State) (c : Bool) : (s.skipIf (!c)).pc = if c then s.pc else nextPc s.pc := by
  cases c <;> rfl

/-- Settles O45: the key queried is the one that VX modulo 16 names (decision D9). -/
theorem keySkipsFollowTheSample : Obligations.KeySkipsFollowTheSample := by
  intro x s
  refine ⟨⟨_, rfl, skipIf_onlyChanges s _, fun keys rand hevent => ?_⟩,
    ⟨_, rfl, skipIf_onlyChanges s _, fun keys rand hevent => ?_⟩⟩
  · rw [skipIf_pc, keyHeld_of_stepEvent hevent, lowNibble_toNat]
    rfl
  · rw [skipIf_not_pc, keyHeld_of_stepEvent hevent, lowNibble_toNat]
    rfl

/-! ### The key poll (44 R184) -/

/-- The poll takes the codes in ascending order, so the first key it finds is the lowest one held. -/
theorem firstKey_of_lowest {s : State} {k : Nibble} (hheld : s.keyHeld k = true)
    (hlowest : ∀ j : Nibble, j.toNat < k.toNat → s.keyHeld j = false) : s.firstKey = some k := by
  have hrange : (List.range 16).find? (s.keyHeld ∘ BitVec.ofNat 4) = some k.toNat := by
    refine List.find?_range_eq_some.2 ⟨by simpa using hheld, List.mem_range.2 k.isLt, fun j hj => ?_⟩
    have hjk : (BitVec.ofNat 4 j).toNat < k.toNat := by
      rw [BitVec.toNat_ofNat]
      omega
    simp [hlowest _ hjk]
  rw [State.firstKey, keyCodes, List.find?_map, hrange]
  simp

section
variable {s : State} {keys : BitVec 16} {rand : Byte} {r : Reg}

/-- A Step in a key-wait is one key poll and nothing else: no fetch, no instruction (40 R120, 44 R184). -/
theorem step_of_wait (hevent : s.nextEvent = .step keys rand) (hkw : s.kw = some r) :
    step s = .next (s.keyPoll r).endEvent := by
  rw [step_of_stepEvent hevent, coreStep_wait hkw]
  rfl

/-- A Step that finds a key stores its code in the waiting register and ends the wait. -/
theorem step_wait_of_key {k : Nibble} (hevent : s.nextEvent = .step keys rand) (hkw : s.kw = some r)
    (hkey : s.firstKey = some k) : ∃ t, step s = .next t ∧ (t.reg r).toNat = k.toNat ∧ t.kw = none ∧ EventOver s t ∧
      OnlyChanges s t (fun p => p = .reg r ∨ p = .kw ∨ p = .surroundings) := by
  have hpoll : OnlyChanges s ((s.setReg r (k.setWidth 8)).setKw none) (fun p => p = .kw ∨ p = .reg r) :=
    (setReg_onlyChanges s r _).trans (setKw_onlyChanges _ none)
  refine ⟨_, step_of_wait hevent hkw, ?_⟩
  rw [keyPoll_some hkey]
  refine ⟨?_, endEvent_kw _, hpoll.eventOver_endEvent (by simp), (hpoll.trans (endEvent_onlyChanges _)).mono ?_⟩
  · rw [endEvent_reg, setKw_reg, reg_setReg_self]
    exact BitVec.toNat_setWidth_of_le (by decide)
  · rintro p (h | h | h) <;> simp [h]

/-- A Step that finds no key changes nothing of the machine. -/
theorem step_wait_of_no_key (hevent : s.nextEvent = .step keys rand) (hkw : s.kw = some r) (hkey : s.firstKey = none) :
    ∃ t, step s = .next t ∧ EventOver s t ∧ OnlyChanges s t (fun p => p = .surroundings) := by
  refine ⟨_, step_of_wait hevent hkw, ?_⟩
  rw [keyPoll_none hkey]
  exact ⟨endEvent_eventOver s, endEvent_onlyChanges s⟩

end

/-- Settles O9: the sample says which key the poll finds first, or that it finds none. -/
theorem keyPollTakesLowestHeldKey : Obligations.KeyPollTakesLowestHeldKey := by
  intro s keys rand r hevent hkw
  refine ⟨fun k hheld hlowest => ?_, fun hnone => ?_⟩
  · refine step_wait_of_key hevent hkw (firstKey_of_lowest ?_ fun j hj => ?_)
    · rw [keyHeld_of_stepEvent hevent, hheld]
    · rw [keyHeld_of_stepEvent hevent, hlowest j hj]
  · refine step_wait_of_no_key hevent hkw ((firstKey_none s).2 fun k => ?_)
    rw [keyHeld_of_stepEvent hevent, hnone k]

/-! ### LD.K and the wait it begins (44 R183) -/

/-- The nibble and the byte that a mask of group and selector keeps are P and KK (30 R91). -/
theorem fields_of_and_byteMask {w : Word} {p : Nibble} {kk : Byte} (h : w &&& 0xF0FF = wordI p 0 kk) :
    fieldP w = p ∧ fieldKK w = kk := by
  have hw := and_byteMask (fieldP w) (fieldX w) (fieldKK w)
  rw [wordI_fields, h] at hw
  exact ⟨by simpa using congrArg fieldP hw.symm, by simpa using congrArg fieldKK hw.symm⟩

theorem ldK_encodes : Encodes 0xF00A 0xF0FF (fun w => .ldK (fieldX w)) := by
  intro w h
  obtain ⟨hp, hkk⟩ : fieldP w = 0xF ∧ fieldKK w = 0x0A := fields_of_and_byteMask h
  rw [decodeWord_groupF hp, decodeGroupF, hkk]
  rfl

/-- Settles O47: LD.K is one write to KW, and a Step in the wait is a key poll, which finds a key or does not. -/
theorem enterKeyWaitSetsTheTarget : Obligations.EnterKeyWaitSetsTheTarget := by
  refine ⟨ldK_encodes, fun x s => ⟨_, rfl, rfl, setKw_onlyChanges s (some x)⟩, fun s r keys rand hevent hkw => ?_⟩
  cases hkey : s.firstKey with
  | none =>
    obtain ⟨t, hstep, hover, hframe⟩ := step_wait_of_no_key hevent hkw hkey
    have htkw : t.kw = s.kw := hframe .kw nofun
    exact ⟨t, hstep, .inr (htkw.trans hkw), fun _ => hframe (.reg r) nofun, hover, hframe.mono fun _ h => .inr (.inr h)⟩
  | some k =>
    obtain ⟨t, hstep, -, htkw, hover, hframe⟩ := step_wait_of_key hevent hkw hkey
    refine ⟨t, hstep, .inl htkw, fun h => ?_, hover, hframe.mono fun _ => or_left_comm.1⟩
    rw [htkw] at h
    cases h

end Sys2Proof.Machine
end

section
/-!
SUPPORT. Memory instructions (45_memory_ops.md): the frame of bytes written in sequence and of the load loop, what each leaves at
the places it names, and from them LD.B, ST.M and LD.M.
-/

namespace Sys2Proof.Machine

/-! ### Bytes written in sequence (20 R61, R62) -/

/-- A 12-bit address that names the cell of an unbounded address is that cell as a part (20 R61). -/
theorem byte_eq_cellPart {b : Addr} {n : Nat} (h : cellOf b.toNat = cellOf n) : Part.byte b = cellPart n := by
  rw [cellOf_addr] at h
  exact congrArg Part.byte (BitVec.eq_of_toNat_eq (h.trans (BitVec.toNat_ofNat n 12).symm))

theorem writeBytes_onlyChanges {bs : List Byte} (hfits : bs.length ≤ memBytes) (s : State) (a : Nat) :
    OnlyChanges s (s.writeBytes a bs) (fun p => ∃ k < bs.length, p = cellPart (a + k)) := by
  intro p hp
  cases p with
  | byte b =>
    exact (readByte_writeBytes bs s a b.toNat hfits).2 fun k hk hcell => hp ⟨k, hk, byte_eq_cellPart hcell⟩
  | surroundings => rw [writeBytes_eq]; exact ⟨rfl, rfl⟩
  | reg | pc | I | sp | slot | dt | st | kw | tone | pixel | font => rw [writeBytes_eq]; rfl

/-- Each byte written stands at its own address. -/
theorem readByte_writeBytes_add {bs : List Byte} (hfits : bs.length ≤ memBytes) (s : State) (a : Nat) {k : Nat}
    (hk : k < bs.length) : (s.writeBytes a bs).readByte (a + k) = bs[k] :=
  (readByte_writeBytes bs s a (a + k) hfits).1 k hk rfl

/-! ### LD.B (45 R190) -/

theorem hundredsDigit_toNat (v : Byte) : (hundredsDigit v).toNat = v.toNat / 100 := by
  rw [hundredsDigit, BitVec.toNat_ofNat]
  omega

theorem tensDigit_toNat (v : Byte) : (tensDigit v).toNat = v.toNat / 10 % 10 := by
  rw [tensDigit, BitVec.toNat_ofNat]
  omega

theorem unitsDigit_toNat (v : Byte) : (unitsDigit v).toNat = v.toNat % 10 := by
  rw [unitsDigit, BitVec.toNat_ofNat]
  omega

/-- The three decimal digits LD.B stores, in the order of their addresses. -/
def decimalDigits (v : Byte) : List Byte := [hundredsDigit v, tensDigit v, unitsDigit v]

theorem decimalDigits_fit (v : Byte) : (decimalDigits v).length ≤ memBytes :=
  (by decide : 3 ≤ memBytes)

theorem exec_ldB (x : Reg) (s : State) :
    exec (.ldB x) s = .next (s.writeBytes (s.dataAddress 0) (decimalDigits (s.reg x))) := rfl

/-- Settles O49: the three digits are written in sequence from I. -/
theorem storeDigitsWritesThreeBytes : Obligations.StoreDigitsWritesThreeBytes := by
  intro x s
  have hfits := decimalDigits_fit (s.reg x)
  have hdigit {k : Nat} (hk : k < 3) := readByte_writeBytes_add hfits s (s.dataAddress 0) hk
  refine ⟨_, exec_ldB x s, ?_, ?_, ?_, writeBytes_onlyChanges hfits s (s.dataAddress 0)⟩
  · exact (congrArg BitVec.toNat (hdigit (k := 0) (by decide))).trans (hundredsDigit_toNat _)
  · exact (congrArg BitVec.toNat (hdigit (k := 1) (by decide))).trans (tensDigit_toNat _)
  · exact (congrArg BitVec.toNat (hdigit (k := 2) (by decide))).trans (unitsDigit_toNat _)

/-! ### ST.M (45 R191) -/

/-- A number up to that of some register is a register's own number (10 R20). -/
theorem toNat_regOf {k : Nat} {x : Reg} (h : k ≤ x.toNat) : (BitVec.ofNat 4 k).toNat = k :=
  (BitVec.toNat_ofNat k 4).trans (Nat.mod_eq_of_lt (Nat.lt_of_le_of_lt h x.isLt))

theorem storeRegs_onlyChanges (x : Reg) (s : State) :
    OnlyChanges s ((List.range (x.toNat + 1)).foldl storeReg s) (fun p => ∃ k ≤ x.toNat, p = cellPart (s.dataAddress k)) := by
  rw [List.range_eq_range', storeRegs_eq_writeBytes]
  refine (writeBytes_onlyChanges ?_ s (s.dataAddress 0)).mono ?_
  · rw [List.length_map, List.length_range', memBytes]
    omega
  · rintro p ⟨k, hk, rfl⟩
    rw [List.length_map, List.length_range'] at hk
    exact ⟨k, Nat.le_of_lt_succ hk, rfl⟩

/-- Settles O50: each register stands in its own cell, and the loop writes no other. -/
theorem storeRegistersWritesV0ToVx : Obligations.StoreRegistersWritesV0ToVx := by
  intro x s
  refine ⟨_, rfl, fun k hk => ?_, storeRegs_onlyChanges x s⟩
  have hreg := toNat_regOf hk
  exact execStM_readByte (x := x) rfl (hreg.trans_le hk) (by rw [hreg])

/-! ### LD.M (45 R192) -/

/-- The load loop leaves what a data address reads as: it writes neither memory nor I. -/
theorem loadRegs_readByte_dataAddress (ks : List Nat) (s : State) (k : Nat) :
    (ks.foldl loadReg s).readByte ((ks.foldl loadReg s).dataAddress k) = s.readByte (s.dataAddress k) := by
  rw [loadRegs_eq]
  rfl

/-- After the first `n` turns of the load loop each of the `n` registers holds its byte of memory: the last turn writes its own
register and keeps the earlier ones. -/
theorem loadRegs_reg_of_lt {n k : Nat} (hn : n ≤ 16) (hk : k < n) (s : State) :
    ((List.range n).foldl loadReg s).reg (BitVec.ofNat 4 k) = s.readByte (s.dataAddress k) := by
  induction n with
  | zero => exact absurd hk (Nat.not_lt_zero k)
  | succ n ih =>
    rw [List.range_succ, List.foldl_append, List.foldl_cons, List.foldl_nil, loadReg, loadRegs_readByte_dataAddress]
    obtain hlt | rfl := Nat.lt_succ_iff_lt_or_eq.1 hk
    · have hne : BitVec.ofNat 4 k ≠ BitVec.ofNat 4 n := by bv_omega
      rw [reg_setReg, if_neg hne]
      exact ih (Nat.le_of_succ_le hn) hlt
    · exact reg_setReg_self _ _ _

theorem loadRegs_onlyChanges (x : Reg) (s : State) :
    OnlyChanges s ((List.range (x.toNat + 1)).foldl loadReg s) (fun p => ∃ r : Reg, r.toNat ≤ x.toNat ∧ p = .reg r) := by
  intro p hp
  cases p with
  | reg q => exact registersHaveOnlyTheirNamedWriters (.ldM x) s _ q rfl fun hq => hp ⟨q, hq, rfl⟩
  | surroundings => rw [loadRegs_eq]; exact ⟨rfl, rfl⟩
  | pc | I | sp | slot | dt | st | kw | tone | byte | pixel | font => rw [loadRegs_eq]; rfl

/-- Settles O51: each register named holds its byte, and no other register is written. -/
theorem loadRegistersReadsV0ToVx : Obligations.LoadRegistersReadsV0ToVx := fun x s =>
  ⟨_, rfl, fun _ hk => loadRegs_reg_of_lt x.isLt (Nat.lt_succ_of_le hk) s, loadRegs_onlyChanges x s⟩

end Sys2Proof.Machine
end

section
/-!
SUPPORT. Unrecognised patterns (46_unrecognised.md): the four no-op rows.
-/

namespace Sys2Proof.Machine

/-- Settles O53: each row has a meaning of its own, and it answers the state it was given (46 R195). -/
theorem unrecognisedWordsChangeNothing : Obligations.UnrecognisedWordsChangeNothing := fun _ _ =>
  ⟨rfl, rfl, rfl, rfl⟩

end Sys2Proof.Machine
end

section
/-!
SUPPORT. No exceptions (60_exceptions.md), reset and hazards (70_reset_and_hazards.md): `step` on a Reset and on a load, the fields
through the end of an event, and from them totality, Reset, LoadROM, the finished program and the delay timer's read-back.
-/

namespace Sys2Proof.Machine

/-! ### Every step answers (60 R200) -/

/-- Every instruction answers a next state. Only RET answers by cases; the other meanings are written as next states. -/
theorem exec_next (i : Instr) (s : State) : ∃ t, exec i s = .next t := by
  cases i with
  | ret ign =>
    by_cases h : 0 < s.sp.val
    · exact ⟨_, exec_ret_pop h ign⟩
    · exact ⟨_, exec_ret_empty h ign⟩
  | cls | jp | call | seImm | sneImm | seReg | ldImm | addImm | ldReg | orReg | andReg | xorReg | addReg | sub | shr | subn | shl
  | sneReg | ldI | jpV0 | rnd | drw | skp | sknp | ldVdt | ldK | ldDtv | ldStv | addI | ldF | ldB | stM | ldM
  | nop0 | nop8 | nopE | nopF => exact ⟨_, rfl⟩

/-- A Step answers a next state: that of the key poll, or that of the fetched instruction (40 R120). -/
theorem coreStep_next (s : State) : ∃ t, coreStep s = .next t := by
  cases hkw : s.kw with
  | some r => exact ⟨_, coreStep_wait hkw⟩
  | none =>
    rw [coreStep_run hkw]
    exact exec_next _ _

theorem step_of_resetEvent {s : State} (h : s.nextEvent = .reset) : step s = .next s.doReset.endEvent := by
  simp only [step, h]

theorem step_of_loadEvent {s : State} {bytes : List Byte} (h : s.nextEvent = .loadRom bytes) :
    step s = .next (s.afterLoad bytes).endEvent := by
  simp only [step, h]

/-- Settles O10, by the kind of the event: Tick, Reset and a load are next states as they stand, and a Step answers one. -/
theorem everyStepHasNextState : Obligations.EveryStepHasNextState := by
  intro s
  cases hevent : s.nextEvent with
  | step keys rand =>
    obtain ⟨u, hu⟩ := coreStep_next s
    exact ⟨u.endEvent, (step_of_stepEvent hevent).trans (andThen_next.2 ⟨u, hu, rfl⟩)⟩
  | tick => exact ⟨_, step_of_tickEvent hevent⟩
  | reset => exact ⟨_, step_of_resetEvent hevent⟩
  | loadRom bytes => exact ⟨_, step_of_loadEvent hevent⟩

/-! ### What the end of an event leaves -/

@[simp] theorem endEvent_pc (s : State) : s.endEvent.pc = s.pc := endEvent_onlyChanges s .pc nofun

@[simp] theorem endEvent_readByte (s : State) (a : Nat) : s.endEvent.readByte a = s.readByte a := by
  rw [endEvent_eq]
  rfl

@[simp] theorem endEvent_fetchWord (s : State) : s.endEvent.fetchWord = s.fetchWord := by
  simp only [State.fetchWord, State.readWord, endEvent_pc, endEvent_readByte]

/-! ### Reset (70 R220, R221) -/

theorem resetWith_reg (f : Font) (r : Reg) : (State.resetWith f).reg r = 0 := Vector.getElem_replicate r.isLt

/-- Reset leaves the screen that CLS leaves. -/
theorem resetWith_pixel (f : Font) (idx : Nat) : (State.resetWith f).pixel idx = false :=
  pixel_clearScreen (State.resetWith f) idx

/-- Settles O1: the registers and the screen by their lemmas, the rest by the fields of the reset state. -/
theorem resetEntryPointIsFixed : Obligations.ResetEntryPointIsFixed :=
  ⟨rfl, rfl, rfl, resetWith_reg defaultFont, rfl, rfl, rfl, resetWith_pixel defaultFont⟩

/-- Settles O3: Reset keeps the record of the surroundings, which the end of the event then moves on. -/
theorem resetEventRestoresResetState : Obligations.ResetEventRestoresResetState := by
  intro s hevent
  rw [step_of_resetEvent hevent, endEvent_eq_eventOver]
  rfl

/-! ### LoadROM (70 R223, 60 R202) -/

/-- Settles O5: the image fits into memory, so the load writes it in sequence from 0x200 and touches no other byte. -/
theorem loadPlacesImageFrom200 : Obligations.LoadPlacesImageFrom200 := by
  intro s bytes hevent hle
  have hfits : bytes.length ≤ memBytes := hle.trans (by decide)
  have hframe := writeBytes_onlyChanges hfits s progBase
  have hstep := step_of_loadEvent hevent
  rw [afterLoad_of_le hle] at hstep
  refine ⟨_, hstep, fun k hk => ?_, hframe.eventOver_endEvent ?_, hframe.trans (endEvent_onlyChanges _)⟩
  · rw [endEvent_readByte]
    exact readByte_writeBytes_add hfits s progBase hk
  · rintro ⟨k, -, hcell⟩
    cases hcell

/-- Settles O6: a refused load leaves the state alone, and the event ends. -/
theorem loadTooLargeChangesNothing : Obligations.LoadTooLargeChangesNothing := by
  intro s bytes hevent hlt
  rw [step_of_loadEvent hevent, afterLoad_of_not_le (Nat.not_le_of_gt hlt), endEvent_eq_eventOver]

/-! ### A finished program (70 R225, decision D19) -/

/-- The jump to pc undoes the fetch's advance, so a Step in a finished state answers that state. -/
theorem coreStep_of_finished {s : State} {a : Addr} (h : s.Finished a) : coreStep s = .next s := by
  obtain ⟨hpc, hkw, hjump⟩ := h
  rw [coreStep_run hkw, hjump]
  change Host.Outcome.next (s.advancePc.setPc (zextAddr a)) = .next s
  rw [← hpc]
  rfl

/-- Being finished does not depend on the record of the surroundings. -/
theorem endEvent_finished {s : State} {a : Addr} (h : s.Finished a) : s.endEvent.Finished a := by
  simpa only [State.Finished, endEvent_pc, endEvent_kw, endEvent_fetchWord] using h

/-- Settles O12: of such a Step only the end of the event remains. -/
theorem finishedStateStaysFinished : Obligations.FinishedStateStaysFinished := by
  intro s a keys rand hfin hevent
  have hstep : step s = .next s.endEvent :=
    (step_of_stepEvent hevent).trans (andThen_next.2 ⟨s, coreStep_of_finished hfin, rfl⟩)
  exact ⟨_, hstep, endEvent_eventOver s, endEvent_onlyChanges s, endEvent_finished hfin⟩

/-! ### The delay timer read back (70 R226) -/

/-- Settles O48: LD.VDT copies DT, into which LD.DTV copied VX. -/
theorem delayTimerReadsBackWhatWasWritten : Obligations.DelayTimerReadsBackWhatWasWritten := by
  intro x y s t u hwrite hread
  obtain rfl : s.setDt (s.reg x) = t := Host.Outcome.next.inj hwrite
  obtain rfl : (s.setDt (s.reg x)).setReg y (s.reg x) = u := Host.Outcome.next.inj hread
  exact reg_setReg_self _ y (s.reg x)

end Sys2Proof.Machine
end
